-- ==== Sys2Proof/Word.lean ====
section
/-! DEFINITION. The word types of the machine (spec/00_scope.md R7, R8). -/

namespace Sys2Proof

/-- One byte: a memory cell, PS, a bank register, an opcode. -/
abbrev Byte := BitVec 8

/-- A general register's width. -/
abbrev Word := BitVec 16

/-- A 24-bit bus address: bank in bits 23:16, offset in bits 15:0 (spec/20_memory.md R49). -/
abbrev Addr := BitVec 24

end Sys2Proof
end

