-- ==== Sys2Proof/Config.lean ====
section
/-! DEFINITION. What is fixed for this hardware (spec/00_scope.md R7) and the two parameters of the
cartridge loader that the spec does not give. -/

namespace Sys2Proof

/-- RAM size in bytes (R7, spec/10_state.md R41). -/
def Config.ramSize : Nat := 131072

/-- ROM size in bytes (R7, spec/10_state.md R42). -/
def Config.romSize : Nat := 524288

/-- Bus address of the reset vector's low byte (R7, spec/20_memory.md R62). -/
def Config.resetVectorAddress : Addr := 0x00FFFC

/-- SP after construction (R7, spec/10_state.md R46). -/
def Config.resetStackPointer : Word := 0x01FF

/-- The content hash of the cartridge loader. The spec names no algorithm (spec/91_not_in_source.md N13), so it
is uninterpreted: any claim holds whatever it is. DESIGN CHOICE, log 7. -/
opaque Config.contentHash : List Byte → Nat

/-- The reference digest of the cartridge loader, not given by the spec (N13): uninterpreted.
DESIGN CHOICE, log 7. -/
opaque Config.referenceDigest : Nat

end Sys2Proof
end

