-- ==== Sys2Proof/Syntax.lean ====
section
/-! DEFINITION. The instructions: one constructor per row of spec/opcode_table.json (spec/30_encoding.md R71). -/

namespace Sys2Proof

/-- The two status bits that decide operand lengths (spec/30_encoding.md R73, R81): `m8` is PS.m = 1 (8-bit
accumulator), `x8` is PS.x = 1 (8-bit index registers). -/
structure Widths where
  m8 : Bool
  x8 : Bool
  deriving DecidableEq, Repr

/-- An instruction with its operand fields as spec/30_encoding.md R72 lays them out.
An immediate of format imm_m or imm_x is held in 16 bits; at 8-bit width its high byte is zero
(`WellFormed`; DESIGN CHOICE, log 4). A displacement is held as its raw two's complement bits (R76). -/
inductive Instr where
  | adcImm (imm : Word)
  | sbcImm (imm : Word)
  | cmpImm (imm : Word)
  | cpxImm (imm : Word)
  | cpyImm (imm : Word)
  | bpl (disp : Byte)
  | bmi (disp : Byte)
  | bcc (disp : Byte)
  | bcs (disp : Byte)
  | bne (disp : Byte)
  | beq (disp : Byte)
  | bra (disp : Byte)
  | brl (disp : Word)
  | inx
  | iny
  | dex
  | dey
  | incA
  | decA
  | clc
  | sec
  | cld
  | sed
  | cli
  | sei
  | clv
  | rep (mask : Byte)
  | sep (mask : Byte)
  | jmpAbs (target : Word)
  | jmlLong (target : Addr)
  /-- The table's default row (R74): an opcode byte that no other row has. Not an instruction of the
  hardware; its meaning is the UnimplementedOpcode fault. -/
  | unimplemented (opcode : Byte)
  deriving DecidableEq, Repr

end Sys2Proof
end

