-- ==== Sys2Proof/WellFormed.lean ====
section
/-! DEFINITION. Which instructions an encoding can hold under given operand widths. -/

namespace Sys2Proof

/-- The 30 admitted opcode bytes, in the order of spec/30_encoding.md R71. -/
def admittedOpcodes : List Byte :=
  [0x69, 0xE9, 0xC9, 0xE0, 0xC0] ++
  [0x10, 0x30, 0x90, 0xB0, 0xD0, 0xF0, 0x80, 0x82] ++
  [0xE8, 0xC8, 0xCA, 0x88, 0x1A, 0x3A] ++
  [0x18, 0x38, 0xD8, 0xF8, 0x58, 0x78, 0xB8, 0xC2, 0xE2] ++
  [0x4C, 0x5C]

/-- An immediate fits the width it is encoded at: one byte when `narrow`, two otherwise (R72). -/
def immediateFits (narrow : Bool) (imm : Word) : Bool :=
  !narrow || decide (imm.toNat < 0x100)

/-- The instruction has an encoding under the widths `c`: its immediate fits (R72, R73), and the default row
stands only for a byte that is not admitted (R74). Every other field fills its bits exactly. -/
def WellFormed (c : Widths) : Instr → Bool
  | .adcImm imm => immediateFits c.m8 imm
  | .sbcImm imm => immediateFits c.m8 imm
  | .cmpImm imm => immediateFits c.m8 imm
  | .cpxImm imm => immediateFits c.x8 imm
  | .cpyImm imm => immediateFits c.x8 imm
  | .bpl _ => true
  | .bmi _ => true
  | .bcc _ => true
  | .bcs _ => true
  | .bne _ => true
  | .beq _ => true
  | .bra _ => true
  | .brl _ => true
  | .inx => true
  | .iny => true
  | .dex => true
  | .dey => true
  | .incA => true
  | .decA => true
  | .clc => true
  | .sec => true
  | .cld => true
  | .sed => true
  | .cli => true
  | .sei => true
  | .clv => true
  | .rep _ => true
  | .sep _ => true
  | .jmpAbs _ => true
  | .jmlLong _ => true
  | .unimplemented opcode => !admittedOpcodes.contains opcode

end Sys2Proof
end

