-- ==== Sys2Proof/Decode.lean ====
section
/-! DEFINITION. Byte assembly, the decoder and the encoder (spec/30_encoding.md). -/

namespace Sys2Proof

/-- Little-endian assembly of two bytes, `hi : lo` (spec/20_memory.md R57, R58; spec/30_encoding.md R75). -/
def wordOfBytes (lo hi : Byte) : Word := hi ++ lo

/-- Little-endian assembly of a 24-bit target, the bank byte last (R77). -/
def addrOfBytes (lo hi bank : Byte) : Addr := bank ++ (hi ++ lo)

/-- Bits 7:0 of a word. -/
def lowByte (w : Word) : Byte := w.extractLsb' 0 8

/-- Bits 15:8 of a word. -/
def highByte (w : Word) : Byte := w.extractLsb' 8 8

/-- Bits 23:16 of an address: its bank (spec/20_memory.md R49). -/
def bankByte (addr : Addr) : Byte := addr.extractLsb' 16 8

/-- Bits 15:0 of an address: its offset (spec/20_memory.md R49). -/
def offsetWord (addr : Addr) : Word := addr.extractLsb' 0 16

/-- The formats of R72, each with the constructor that takes the operand it carries. -/
inductive Form where
  | impl (i : Instr)
  | imm8 (mk : Byte → Instr)
  | immM (mk : Word → Instr)
  | immX (mk : Word → Instr)
  | rel8 (mk : Byte → Instr)
  | rel16 (mk : Word → Instr)
  | abs (mk : Word → Instr)
  | long (mk : Addr → Instr)

/-- Opcode byte and format of every admitted instruction: the rows of R71 in its order. -/
def opcodeRows : List (Byte × Form) :=
  [ (0x69, .immM .adcImm), (0xE9, .immM .sbcImm), (0xC9, .immM .cmpImm),
    (0xE0, .immX .cpxImm), (0xC0, .immX .cpyImm) ] ++
  [ (0x10, .rel8 .bpl), (0x30, .rel8 .bmi), (0x90, .rel8 .bcc), (0xB0, .rel8 .bcs),
    (0xD0, .rel8 .bne), (0xF0, .rel8 .beq), (0x80, .rel8 .bra), (0x82, .rel16 .brl) ] ++
  [ (0xE8, .impl .inx), (0xC8, .impl .iny), (0xCA, .impl .dex), (0x88, .impl .dey),
    (0x1A, .impl .incA), (0x3A, .impl .decA) ] ++
  [ (0x18, .impl .clc), (0x38, .impl .sec), (0xD8, .impl .cld), (0xF8, .impl .sed),
    (0x58, .impl .cli), (0x78, .impl .sei), (0xB8, .impl .clv),
    (0xC2, .imm8 .rep), (0xE2, .imm8 .sep) ] ++
  [ (0x4C, .abs .jmpAbs), (0x5C, .long .jmlLong) ]

/-- The row an opcode byte selects; every other byte is the default row "unsupported" (R74, R78, R83). -/
def formOf (opcode : Byte) : Form :=
  (opcodeRows.lookup opcode).getD (.impl (.unimplemented opcode))

/-- How many operand bytes a format has (R72, R73). -/
def Form.operandCount (c : Widths) : Form → Nat
  | .impl _ => 0
  | .imm8 _ => 1
  | .immM _ => if c.m8 then 1 else 2
  | .immX _ => if c.x8 then 1 else 2
  | .rel8 _ => 1
  | .rel16 _ => 2
  | .abs _ => 2
  | .long _ => 3

/-- How many operand bytes follow an opcode byte under the widths `c`. -/
def operandCount (c : Widths) (opcode : Byte) : Nat := (formOf opcode).operandCount c

/-- The k-th operand byte. -/
def operandByte (operands : List Byte) (k : Nat) : Byte := operands.getD k 0

/-- An immediate of one byte (zero in its high byte) or two bytes, low byte first (R75). -/
def immediateOf (narrow : Bool) (operands : List Byte) : Word :=
  wordOfBytes (operandByte operands 0) (if narrow then 0 else operandByte operands 1)

/-- The instruction a format makes of its operand bytes (R72, R75, R76, R77). -/
def Form.build (c : Widths) (operands : List Byte) : Form → Instr
  | .impl i => i
  | .imm8 mk => mk (operandByte operands 0)
  | .immM mk => mk (immediateOf c.m8 operands)
  | .immX mk => mk (immediateOf c.x8 operands)
  | .rel8 mk => mk (operandByte operands 0)
  | .rel16 mk => mk (wordOfBytes (operandByte operands 0) (operandByte operands 1))
  | .abs mk => mk (wordOfBytes (operandByte operands 0) (operandByte operands 1))
  | .long mk => mk (addrOfBytes (operandByte operands 0) (operandByte operands 1) (operandByte operands 2))

/-- The instruction of an opcode byte and its operand bytes. Only the first `operandCount` bytes count. -/
def instrOf (c : Widths) (opcode : Byte) (operands : List Byte) : Instr := (formOf opcode).build c operands

/-- Why a list of bytes is not a whole instruction. -/
inductive DecodeError where
  /-- There is no byte at all. -/
  | noOpcode
  /-- The list ends before this opcode's operand bytes do. -/
  | operandMissing (opcode : Byte)
  deriving DecidableEq, Repr

/-- The decoder: the instruction at the head of a byte list under the widths `c`, and the bytes after it.
Total: every opcode byte has an outcome (R83), and a list that ends too soon is rejected by name. -/
def decode (c : Widths) : List Byte → Except DecodeError (Instr × List Byte)
  | [] => .error .noOpcode
  | opcode :: rest =>
    if rest.length < operandCount c opcode then .error (.operandMissing opcode)
    else .ok (instrOf c opcode rest, rest.drop (operandCount c opcode))

/-- The operand bytes of an immediate: one byte when `narrow`, two otherwise (R72, R73). -/
def immediateBytes (narrow : Bool) (imm : Word) : List Byte :=
  if narrow then [lowByte imm] else [lowByte imm, highByte imm]

/-- The encoder: the bytes of an instruction under the widths `c`, in the order they are fetched (R71, R72). -/
def encode (c : Widths) : Instr → List Byte
  | .adcImm imm => 0x69 :: immediateBytes c.m8 imm
  | .sbcImm imm => 0xE9 :: immediateBytes c.m8 imm
  | .cmpImm imm => 0xC9 :: immediateBytes c.m8 imm
  | .cpxImm imm => 0xE0 :: immediateBytes c.x8 imm
  | .cpyImm imm => 0xC0 :: immediateBytes c.x8 imm
  | .bpl disp => [0x10, disp]
  | .bmi disp => [0x30, disp]
  | .bcc disp => [0x90, disp]
  | .bcs disp => [0xB0, disp]
  | .bne disp => [0xD0, disp]
  | .beq disp => [0xF0, disp]
  | .bra disp => [0x80, disp]
  | .brl disp => [0x82, lowByte disp, highByte disp]
  | .inx => [0xE8]
  | .iny => [0xC8]
  | .dex => [0xCA]
  | .dey => [0x88]
  | .incA => [0x1A]
  | .decA => [0x3A]
  | .clc => [0x18]
  | .sec => [0x38]
  | .cld => [0xD8]
  | .sed => [0xF8]
  | .cli => [0x58]
  | .sei => [0x78]
  | .clv => [0xB8]
  | .rep mask => [0xC2, mask]
  | .sep mask => [0xE2, mask]
  | .jmpAbs target => [0x4C, lowByte target, highByte target]
  | .jmlLong target =>
    [0x5C, lowByte (offsetWord target), highByte (offsetWord target), bankByte target]
  | .unimplemented opcode => [opcode]

/-- The widths right after reset: PS.m = PS.x = 0 (spec/70_reset_and_hazards.md R172). -/
def resetWidths : Widths := { m8 := false, x8 := false }

/-- The four bytes of a table word, first byte in bits 7:0; bits from `nbits` up are zero. Four bytes are the
longest instruction (R70). -/
def tableBytes (nbits w : Nat) : List Byte :=
  [0, 1, 2, 3].map fun k => BitVec.ofNat 8 (w % 2 ^ nbits / 2 ^ (8 * k))

/-- What the decoder reads from a table word under the widths of reset (log 8). -/
def decodeTableWord (nbits w : Nat) : Option Instr :=
  match decode resetWidths (tableBytes nbits w) with
  | .ok (i, _) => some i
  | .error _ => none

end Sys2Proof
end

