-- ==== Sys2Proof/Machine/Memory.lean ====
section
/-! DEFINITION. A storage array of bytes as plain data (spec/10_state.md R41, R42): a list of cells in one
canonical form. -/

namespace Sys2Proof.Machine

/-- A storage array: its cells that differ from `unlistedByte`, by strictly rising index. Every array of bytes has
exactly one such list, so the form narrows neither RAM_INIT nor ROM_IMAGE. -/
abbrev Memory := List Host.Cell

/-- What a cell that is not listed reads as. DESIGN CHOICE, log 1: it is the byte `State.reset` finds everywhere. -/
def unlistedByte : Byte := 0x00

/-- The byte at an index. -/
def Memory.read : Memory → Nat → Byte
  | [], _ => unlistedByte
  | (j, b) :: rest, i => if i = j then b else Memory.read rest i

/-- The array with one byte changed, in canonical form again. -/
def Memory.write : Memory → Nat → Byte → Memory
  | [], i, v => if v = unlistedByte then [] else [(i, v)]
  | (j, b) :: rest, i, v =>
    if i < j then (if v = unlistedByte then (j, b) :: rest else (i, v) :: (j, b) :: rest)
    else if i = j then (if v = unlistedByte then rest else (i, v) :: rest)
    else (j, b) :: Memory.write rest i v

/-- Every index is at least `low`, below `size` and above the one before it, and no cell holds `unlistedByte`. -/
def Memory.wfFrom (size : Nat) : Nat → Memory → Bool
  | _, [] => true
  | low, (j, b) :: rest =>
    decide (low ≤ j) && decide (j < size) && decide (b ≠ unlistedByte) && Memory.wfFrom size (j + 1) rest

/-- The canonical form of an array of `size` bytes. -/
def Memory.wf (size : Nat) (m : Memory) : Bool := Memory.wfFrom size 0 m

/-- The array that holds the bytes of a list from index `i` on. -/
def Memory.ofBytesFrom : Nat → List Byte → Memory
  | _, [] => []
  | i, b :: rest =>
    if b = unlistedByte then Memory.ofBytesFrom (i + 1) rest else (i, b) :: Memory.ofBytesFrom (i + 1) rest

/-- The array that holds the bytes of a list. -/
def Memory.ofBytes (bytes : List Byte) : Memory := Memory.ofBytesFrom 0 bytes

end Sys2Proof.Machine
end

