-- ==== Sys2Proof/Machine/Bus.lean ====
section
/-! DEFINITION. The address decoder and the memory bus (spec/20_memory.md R48 to R57). -/

namespace Sys2Proof.Machine

/-- Direction of a bus access, recorded by a fault (spec/60_exceptions.md R151). -/
inductive Access where
  | read
  | write
  deriving DecidableEq, Repr

/-- The device windows this hardware does not emulate (R52 rows 2, 4 and 6). -/
inductive ReservedRegion where
  | reservedIO
  | saveRam
  | hardwareRegisters
  deriving DecidableEq, Repr

/-- What an address decodes to (R52). -/
inductive Region where
  | ram (index : Nat)
  | rom (index : Nat)
  | reserved (region : ReservedRegion)
  | openBus
  deriving DecidableEq, Repr

/-- Bits 23:16 of an address as a number (R49). -/
def bankOf (addr : Addr) : Nat := addr.toNat / 0x10000

/-- Bits 15:0 of an address as a number (R49). -/
def offsetOf (addr : Addr) : Nat := addr.toNat % 0x10000

/-- Banks 0x00-0x3F and 0x80-0xBF, the bank range of R52 rows 2, 3 and 6. -/
def isSystemBank (bank : Nat) : Bool := decide (bank ≤ 0x3F) || (decide (0x80 ≤ bank) && decide (bank ≤ 0xBF))

/-- Banks 0x70-0x7D and 0xF0-0xFF, the bank range of R52 row 4. -/
def isSaveRamBank (bank : Nat) : Bool :=
  (decide (0x70 ≤ bank) && decide (bank ≤ 0x7D)) || (decide (0xF0 ≤ bank) && decide (bank ≤ 0xFF))

/-- Banks 0x00-0x7D and 0x80-0xFF, the bank range of R52 row 5. -/
def isRomBank (bank : Nat) : Bool := decide (bank ≤ 0x7D) || (decide (0x80 ≤ bank) && decide (bank ≤ 0xFF))

/-- `lo ≤ offset ≤ hi`: an offset range of R52, both ends included. -/
def inRange (lo hi offset : Nat) : Bool := decide (lo ≤ offset) && decide (offset ≤ hi)

/-- RAM index of row 1 (R52, R54). -/
def ramIndex (bank offset : Nat) : Nat := offset ||| ((bank &&& 1) <<< 16)

/-- ROM index of row 5, the LoROM mapping (R52, R55). -/
def romIndex (bank offset : Nat) : Nat := (offset &&& 0x7FFF) ||| ((bank &&& 0xF) <<< 15)

/-- The ordered rule table of R52, first match wins, row for row. -/
def decodeRegion (bank offset : Nat) : Region :=
  if inRange 0x7E 0x7F bank then .ram (ramIndex bank offset)
  else if isSystemBank bank && inRange 0x4000 0x4FFF offset then .reserved .reservedIO
  else if isSystemBank bank && inRange 0x0000 0x1FFF offset then .ram offset
  else if isSaveRamBank bank && inRange 0x0000 0x7FFF offset then .reserved .saveRam
  else if isRomBank bank && inRange 0x8000 0xFFFF offset then .rom (romIndex bank offset)
  else if isSystemBank bank && inRange 0x2000 0x2FFF offset then .reserved .hardwareRegisters
  else .openBus

/-- Decode(addr) (R52). -/
def decodeAddress (addr : Addr) : Region := decodeRegion (bankOf addr) (offsetOf addr)

/-- The memory bus: working RAM and the cartridge image it owns (spec/10_state.md R20, R41, R42). -/
structure Bus where
  ram : Memory
  rom : Memory
  deriving DecidableEq, Repr

/-- Both arrays are in canonical form. -/
def Bus.wf (b : Bus) : Bool := b.ram.wf Config.ramSize && b.rom.wf Config.romSize

/-- Why a bus access fails (R50, R51). -/
inductive BusError where
  /-- Open bus. -/
  | unmapped (address : Addr) (access : Access)
  /-- A device window that is not emulated. -/
  | reserved (address : Addr) (access : Access) (region : ReservedRegion)
  deriving DecidableEq, Repr

/-- Bus read of one byte (R50). It has no side effect (R61). -/
def Bus.read (b : Bus) (addr : Addr) : Except BusError Byte :=
  match decodeAddress addr with
  | .ram i => .ok (b.ram.read i)
  | .rom i => .ok (b.rom.read i)
  | .reserved region => .error (.reserved addr .read region)
  | .openBus => .error (.unmapped addr .read)

/-- Bus write of one byte (R51); a write to ROM is accepted and discarded (R56). -/
def Bus.write (b : Bus) (addr : Addr) (v : Byte) : Except BusError Bus :=
  match decodeAddress addr with
  | .ram i => .ok { b with ram := b.ram.write i v }
  | .rom _ => .ok b
  | .reserved region => .error (.reserved addr .write region)
  | .openBus => .error (.unmapped addr .write)

/-- Two byte reads, little-endian, low byte first, the second address modulo 2^24 (R57). -/
def Bus.read16 (b : Bus) (addr : Addr) : Except BusError Word :=
  match b.read addr with
  | .error err => .error err
  | .ok lo =>
    match b.read (addr + 1) with
    | .error err => .error err
    | .ok hi => .ok (wordOfBytes lo hi)

/-- The reset vector (R62; spec/70_reset_and_hazards.md R170, R171). Both bytes decode to ROM, so the read cannot
fault and the second branch is never taken (`Laws/Bus.lean`, `resetVector_eq`). -/
def Bus.resetVector (b : Bus) : Word :=
  match b.read16 Config.resetVectorAddress with
  | .ok v => v
  | .error _ => 0

/-- True where an address holds storage (RAM or ROM). -/
def isStorage (addr : Addr) : Bool :=
  match decodeAddress addr with
  | .ram _ => true
  | .rom _ => true
  | .reserved _ => false
  | .openBus => false

/-- Loading from outside the machine: one byte put into the storage an address decodes to, the ROM image included.
No step does this; `State.withFetchWord` does (log 2). -/
def Bus.place (b : Bus) (addr : Addr) (v : Byte) : Bus :=
  match decodeAddress addr with
  | .ram i => { b with ram := b.ram.write i v }
  | .rom i => { b with rom := b.rom.write i v }
  | .reserved _ => b
  | .openBus => b

end Sys2Proof.Machine
end

