-- ==== Sys2Proof/Machine/State.lean ====
section
/-! DEFINITION. The machine's state, its faults and refusals, and construction (spec/10_state.md,
spec/60_exceptions.md R150, R151, spec/70_reset_and_hazards.md R170). -/

namespace Sys2Proof.Machine

/-- The fault kinds of spec/60_exceptions.md R151. Each ends the run; all are what the spec says, so all are safe. -/
inductive Fault where
  /-- Code 1. Raised by the cartridge loader (`loadCartridge`), never by a step (R154). Safe. -/
  | romValidationError
  /-- Code 2. Raised by `execUnimplemented`: the fetched opcode byte has no handler (R152). Safe. -/
  | unimplementedOpcode (opcode : Byte) (address : Addr)
  /-- Code 3. Raised by a bus access, in a step by an instruction-stream fetch: open bus (R153). Safe. -/
  | unmappedAccess (address : Addr) (access : Access)
  /-- Code 4. Raised by a bus access, in a step by an instruction-stream fetch: a device window (R153). Safe. -/
  | reservedRegionAccess (address : Addr) (access : Access) (region : ReservedRegion)
  deriving DecidableEq, Repr

/-- Where the model has no transition. -/
inductive Refusal where
  /-- Raised by an arm of `exec` that has no meaning yet; no arm is such. Safe. -/
  | notModelled (mnemonic : String)
  /-- Raised by `step` in a faulted state: no step follows a fault (spec/10_state.md R43, spec/60_exceptions.md R150,
  spec/93_implementation_defined.md U11). Safe. DESIGN CHOICE of the form, log 5. -/
  | stepAfterFault
  deriving DecidableEq, Repr

/-- Run status (spec/10_state.md R43). -/
inductive RunStatus where
  | running
  | faulted (fault : Fault)
  deriving DecidableEq, Repr

/-- Everything the spec gives the machine (spec/10_state.md R46, R47). -/
structure State where
  /-- Accumulator A (R21). -/
  a : Word
  /-- Index register X (R22). -/
  x : Word
  /-- Index register Y (R22). -/
  y : Word
  /-- Stack pointer SP (R23): stored, reset, never used. -/
  sp : Word
  /-- Direct-page register D (R24): stored, reset, never used. -/
  d : Word
  /-- Program counter PC (R38). -/
  pc : Word
  /-- Program bank K (R39). -/
  k : Byte
  /-- Data bank DBR (R40): stored, reset, never used. -/
  dbr : Byte
  /-- Status register PS (R27, R36): one byte, read through the flags of `Flag`. -/
  ps : Byte
  /-- Emulation-mode bit E (R37). -/
  e : Bool
  /-- Working RAM and cartridge ROM (R41, R42). -/
  bus : Bus
  /-- Run status (R43). -/
  status : RunStatus
  deriving DecidableEq, Repr

/-- Construction, the only reset, for any cartridge image and any initial RAM (spec/70_reset_and_hazards.md R170,
spec/10_state.md R46). -/
def State.construct (romImage ramInit : Memory) : State where
  a := 0x0000
  x := 0x0000
  y := 0x0000
  sp := Config.resetStackPointer
  d := 0x0000
  pc := ({ ram := ramInit, rom := romImage } : Bus).resetVector
  k := 0x00
  dbr := 0x00
  ps := 0x04
  e := true
  bus := { ram := ramInit, rom := romImage }
  status := .running

/-- The machine right after reset with nothing listed in RAM or ROM (DESIGN CHOICE, log 1). -/
def State.reset : State := State.construct [] []

/-- A written, everything else kept. -/
def State.withA (s : State) (v : Word) : State := { s with a := v }
/-- X written, everything else kept. -/
def State.withX (s : State) (v : Word) : State := { s with x := v }
/-- Y written, everything else kept. -/
def State.withY (s : State) (v : Word) : State := { s with y := v }
/-- PC written, everything else kept. -/
def State.withPc (s : State) (v : Word) : State := { s with pc := v }
/-- K written, everything else kept. -/
def State.withK (s : State) (v : Byte) : State := { s with k := v }
/-- PS written, everything else kept. -/
def State.withPs (s : State) (v : Byte) : State := { s with ps := v }
/-- the bus written, everything else kept. -/
def State.withBus (s : State) (v : Bus) : State := { s with bus := v }
/-- the run status written, everything else kept. -/
def State.withStatus (s : State) (v : RunStatus) : State := { s with status := v }

/-- What one step, and one instruction's meaning, answers. -/
abbrev StepOutcome := Host.Outcome State Fault Refusal

end Sys2Proof.Machine
end

