-- ==== Sys2Proof/Machine/Operands.lean ====
section
/-! DEFINITION. Operation widths and operand values (spec/00_scope.md R10, R15; spec/10_state.md R25, R26). Operand
values are naturals below 2^w, as R8 has them; a result is computed exactly and narrowed once, by `wrap`. -/

namespace Sys2Proof.Machine

/-- An operation width. -/
inductive Width where
  | w8
  | w16
  deriving DecidableEq, Repr

/-- 8 bits when the width flag is 1, else 16 (R25). -/
def Width.ofFlag (narrow : Bool) : Width := if narrow then .w8 else .w16

/-- w. -/
def Width.bits : Width → Nat
  | .w8 => 8
  | .w16 => 16

/-- 2^w. -/
def Width.modulus : Width → Nat
  | .w8 => 0x100
  | .w16 => 0x10000

/-- mask_w = 2^w - 1 (R15). -/
def Width.mask (w : Width) : Nat := w.modulus - 1

/-- sign_w(v) = v[w-1] (R10). -/
def signBit (w : Width) (v : Nat) : Bool := v.testBit (w.bits - 1)

/-- v mod 2^w, the mathematical remainder, also of a negative v (R8). -/
def wrap (w : Width) (v : Int) : Nat := (v % (w.modulus : Int)).toNat

/-- low(R, w) = R[w-1:0] (R15). -/
def low (r : Word) (w : Width) : Nat :=
  match w with
  | .w8 => (lowByte r).toNat
  | .w16 => r.toNat

/-- merge(R, w, v): the register after a width-w result v is written, the hidden byte kept (R15, R26). -/
def merge (r : Word) (w : Width) (v : Nat) : Word :=
  match w with
  | .w8 => highByte r ++ BitVec.ofNat 8 v
  | .w16 => BitVec.ofNat 16 v

/-- R & 0x00FF: SEP's truncation of an index register (spec/44_flag_control.md R138). -/
def truncateIndex (r : Word) : Word := r &&& 0x00FF

/-- sext_8 of a rel8 displacement (R10; spec/30_encoding.md R76). -/
def sext8 (disp : Byte) : Int := disp.toInt

/-- sext_16 of a rel16 displacement (R10; spec/30_encoding.md R76). -/
def sext16 (disp : Word) : Int := disp.toInt

end Sys2Proof.Machine
end

