-- ==== Sys2Proof/Machine/Flags.lean ====
section
/-! DEFINITION. The flags of PS and how they are computed (spec/10_state.md R27 to R36; spec/00_scope.md R11, R16;
spec/40_arithmetic.md R93). -/

namespace Sys2Proof.Machine

/-- The eight flags under their names in R27. -/
inductive Flag where
  | C
  | Z
  | I
  | D
  | x
  | m
  | V
  | N
  deriving DecidableEq, Repr

/-- Bit positions (R27). -/
def Flag.bit : Flag → Nat
  | .C => 0
  | .Z => 1
  | .I => 2
  | .D => 3
  | .x => 4
  | .m => 5
  | .V => 6
  | .N => 7

/-- Masks (R27). -/
def Flag.mask (f : Flag) : Byte := BitVec.twoPow 8 f.bit

/-- PS.f (R11). -/
def getFlag (ps : Byte) (f : Flag) : Bool := ps.getLsbD f.bit

/-- PS.f <- b: one bit written, the other seven unchanged (R11, R36). -/
def putFlag (ps : Byte) (f : Flag) (b : Bool) : Byte := if b then ps ||| f.mask else ps &&& ~~~f.mask

/-- setZN(v, w) (R16). -/
def putZN (ps : Byte) (w : Width) (v : Nat) : Byte := putFlag (putFlag ps .Z (decide (v = 0))) .N (signBit w v)

/-- The overflow formula of R93: ¬(a_sign ⊕ b_sign) ∧ (a_sign ⊕ s_sign), at the sign bit of width w. -/
def overflowBit (w : Width) (a b s : Nat) : Bool :=
  !(signBit w a ^^ signBit w b) && (signBit w a ^^ signBit w s)

/-- The operand widths the decoder reads from PS (R25; spec/30_encoding.md R73). -/
def widthsOf (ps : Byte) : Widths := { m8 := getFlag ps .m, x8 := getFlag ps .x }

end Sys2Proof.Machine
end

