-- ==== Sys2Proof/Machine/Alu.lean ====
section
/-! DEFINITION. The binary adder and the BCD arithmetic unit (spec/40_arithmetic.md R92 to R97), each transcribed from
its rule's pseudocode; R93's V is sampled where the rule samples it. -/

namespace Sys2Proof.Machine

/-- (r, c, v): the result below 2^w, the carry and the overflow. -/
structure AluResult where
  r : Nat
  c : Bool
  v : Bool
  deriving DecidableEq, Repr

/-- AddBin(a, b, cin, w) (R92). -/
def addBin (a b : Nat) (cin : Bool) (w : Width) : AluResult :=
  let s := a + b + cin.toNat
  { r := s % w.modulus, c := decide (s > w.mask), v := overflowBit w a b (s % w.modulus) }

/-- AddBCD8(a, b, cin) (R94). -/
def addBcd8 (a b : Nat) (cin : Bool) : AluResult :=
  let s0 := (a &&& 0x0F) + (b &&& 0x0F) + cin.toNat
  let s1 := if s0 > 0x09 then s0 + 0x06 else s0
  let c0 := (decide (s1 > 0x0F)).toNat
  let s2 := (a &&& 0xF0) + (b &&& 0xF0) + (c0 <<< 4) + s1 % 0x10
  let s3 := if s2 > 0x9F then s2 + 0x60 else s2
  { r := s3 % 0x100, c := decide (s3 > 0xFF), v := overflowBit .w8 a b s2 }

/-- AddBCD16(a, b, cin) (R95). -/
def addBcd16 (a b : Nat) (cin : Bool) : AluResult :=
  let s0 := (a &&& 0x000F) + (b &&& 0x000F) + cin.toNat
  let s1 := if s0 > 0x0009 then s0 + 0x0006 else s0
  let c1 := (decide (s1 > 0x000F)).toNat
  let s2 := (a &&& 0x00F0) + (b &&& 0x00F0) + (c1 <<< 4) + s1 % 0x0010
  let s3 := if s2 > 0x009F then s2 + 0x0060 else s2
  let c2 := (decide (s3 > 0x00FF)).toNat
  let s4 := (a &&& 0x0F00) + (b &&& 0x0F00) + (c2 <<< 8) + s3 % 0x0100
  let s5 := if s4 > 0x09FF then s4 + 0x0600 else s4
  let c3 := (decide (s5 > 0x0FFF)).toNat
  let s6 := (a &&& 0xF000) + (b &&& 0xF000) + (c3 <<< 12) + s5 % 0x1000
  let s7 := if s6 > 0x9FFF then s6 + 0x6000 else s6
  { r := s7 % 0x10000, c := decide (s7 > 0xFFFF), v := overflowBit .w16 a b s6 }

/-- SubBCD8(a, d, cin), d the complement of the subtrahend (R96). A running value may be negative. -/
def subBcd8 (a d : Nat) (cin : Bool) : AluResult :=
  let s0 : Int := ((a &&& 0x0F) + (d &&& 0x0F) + cin.toNat : Nat)
  let s1 := if s0 ≤ 0x0F then s0 - 0x06 else s0
  let c0 := (decide (s1 > 0x0F)).toNat
  let s2 : Nat := (a &&& 0xF0) + (d &&& 0xF0) + (c0 <<< 4) + (s1 % 0x10).toNat
  let s3 : Int := if s2 ≤ 0xFF then (s2 : Int) - 0x60 else s2
  { r := (s3 % 0x100).toNat, c := decide (s3 > 0xFF), v := overflowBit .w8 a d s2 }

/-- SubBCD16(a, d, cin) (R97). -/
def subBcd16 (a d : Nat) (cin : Bool) : AluResult :=
  let s0 : Int := ((a &&& 0x000F) + (d &&& 0x000F) + cin.toNat : Nat)
  let s1 := if s0 ≤ 0x000F then s0 - 0x0006 else s0
  let c1 := (decide (s1 > 0x000F)).toNat
  let s2 : Nat := (a &&& 0x00F0) + (d &&& 0x00F0) + (c1 <<< 4) + (s1 % 0x0010).toNat
  let s3 : Int := if s2 ≤ 0x00FF then (s2 : Int) - 0x0060 else s2
  let c2 := (decide (s3 > 0x00FF)).toNat
  let s4 : Nat := (a &&& 0x0F00) + (d &&& 0x0F00) + (c2 <<< 8) + (s3 % 0x0100).toNat
  let s5 : Int := if s4 ≤ 0x0FFF then (s4 : Int) - 0x0600 else s4
  let c3 := (decide (s5 > 0x0FFF)).toNat
  let s6 : Nat := (a &&& 0xF000) + (d &&& 0xF000) + (c3 <<< 12) + (s5 % 0x1000).toNat
  let s7 : Int := if s6 ≤ 0xFFFF then (s6 : Int) - 0x6000 else s6
  { r := (s7 % 0x10000).toNat, c := decide (s7 > 0xFFFF), v := overflowBit .w16 a d s6 }

/-- ADC's choice of adder: PS.D selects the BCD unit (R90, R100). -/
def addWithCarry (decimal : Bool) (a imm : Nat) (cin : Bool) (w : Width) : AluResult :=
  if decimal then
    match w with
    | .w8 => addBcd8 a imm cin
    | .w16 => addBcd16 a imm cin
  else addBin a imm cin w

/-- SBC's choice of adder, on the w-bit complement of the immediate (R91, R100). -/
def subtractWithBorrow (decimal : Bool) (a imm : Nat) (cin : Bool) (w : Width) : AluResult :=
  if decimal then
    match w with
    | .w8 => subBcd8 a (w.mask - imm) cin
    | .w16 => subBcd16 a (w.mask - imm) cin
  else addBin a (w.mask - imm) cin w

end Sys2Proof.Machine
end

