-- ==== Sys2Proof/Machine/Ops.lean ====
section
/-! DEFINITION. The named operations the meanings are built from: flags and widths of a state, bus access, instruction
fetch, faults, and the shared operations of the instruction families. -/

namespace Sys2Proof.Machine

/-! ### Flags and widths -/

/-- PS.f of a state. -/
def State.flag (s : State) (f : Flag) : Bool := getFlag s.ps f

/-- PS.f <- b on a state. -/
def State.setFlag (s : State) (f : Flag) (b : Bool) : State := s.withPs (putFlag s.ps f b)

/-- wA (spec/10_state.md R25). -/
def State.wA (s : State) : Width := Width.ofFlag (s.flag .m)

/-- wXY (R25). -/
def State.wXY (s : State) : Width := Width.ofFlag (s.flag .x)

/-! ### Faults -/

/-- `raise Fault(kind, info)` ends the step with the fault outcome (spec/00_scope.md R14, spec/60_exceptions.md R150).
This is the whole of the hardware's exception mechanism: no state is saved and no handler is entered (R157). -/
def raise (f : Fault) : StepOutcome := .fault f

/-- The core's fault for a bus error (R151, R153). -/
def faultOfBusError : BusError → Fault
  | .unmapped addr access => .unmappedAccess addr access
  | .reserved addr access region => .reservedRegionAccess addr access region

/-- The spec's numeric code of a fault kind (R151). -/
def faultCode : Fault → Nat
  | .romValidationError => 1
  | .unimplementedOpcode _ _ => 2
  | .unmappedAccess _ _ => 3
  | .reservedRegionAccess _ _ _ => 4

/-- The faulted state: the state at the start of the step, with its run status Faulted (R150, spec/10_state.md R43). -/
def recordFault (s : State) (f : Fault) : State := s.withStatus (.faulted f)

/-! ### Memory primitives (spec/00_scope.md R12) -/

/-- MemRead(addr, 1). -/
def memRead (s : State) (addr : Addr) : Except Fault Byte := (s.bus.read addr).mapError faultOfBusError

/-- MemRead(addr, 2). -/
def memRead16 (s : State) (addr : Addr) : Except Fault Word := (s.bus.read16 addr).mapError faultOfBusError

/-- MemWrite(addr, 1, v). No admitted instruction makes one (spec/20_memory.md R60). -/
def memWrite (s : State) (addr : Addr) (v : Byte) : Except Fault State :=
  match s.bus.write addr v with
  | .ok b => .ok (s.withBus b)
  | .error err => .error (faultOfBusError err)

/-! ### Instruction fetch -/

/-- (K << 16) | PC (spec/10_state.md R38). -/
def codeAddress (k : Byte) (pc : Word) : Addr := k ++ pc

/-- Fetch8: read the byte at K:PC and advance PC modulo 2^16; K is never changed (spec/00_scope.md R13). -/
def fetch8 (s : State) : Except Fault (Byte × State) :=
  match memRead s (codeAddress s.k s.pc) with
  | .error f => .error f
  | .ok b => .ok (b, s.withPc (s.pc + 1))

/-- Several Fetch8 in a row; the first fault ends them (spec/60_exceptions.md R155). -/
def fetchBytes : Nat → State → Except Fault (List Byte × State)
  | 0, s => .ok ([], s)
  | n + 1, s =>
    match fetch8 s with
    | .error f => .error f
    | .ok (b, s1) =>
      match fetchBytes n s1 with
      | .error f => .error f
      | .ok (bs, s2) => .ok (b :: bs, s2)

/-- Fetch one instruction: the opcode byte, then as many operand bytes as the opcode and the widths at this moment
ask for (spec/30_encoding.md R70, R73, R78). The state answered has PC past the last byte fetched; an unimplemented
byte takes no operand (R74). -/
def fetchInstr (s : State) : Except Fault (Instr × State) :=
  match fetch8 s with
  | .error f => .error f
  | .ok (opcode, s1) =>
    match fetchBytes (operandCount (widthsOf s.ps) opcode) s1 with
    | .error f => .error f
    | .ok (operands, s2) => .ok (instrOf (widthsOf s.ps) opcode operands, s2)

/-! ### Shared operations of the families -/

/-- The end of ADC and SBC: A, C, V, then Z and N of the result (spec/40_arithmetic.md R90, R91). -/
def State.storeAlu (s : State) (w : Width) (res : AluResult) : State :=
  (s.withA (merge s.a w res.r)).withPs (putZN (putFlag (putFlag s.ps .C res.c) .V res.v) w res.r)

/-- Compare(reg, op, w): C, Z and N from the wrapping subtraction, nothing written back (spec/41_compare.md R105). -/
def State.compare (s : State) (reg op : Nat) (w : Width) : State :=
  s.withPs (putZN (putFlag s.ps .C (decide (reg ≥ op))) w (wrap w ((reg : Int) - op)))

/-- BranchTo(disp): PC, which already points after the instruction, plus the displacement modulo 2^16
(spec/42_branch.md R110). -/
def State.branchTo (s : State) (disp : Int) : State := s.withPc (BitVec.ofInt 16 ((s.pc.toNat : Int) + disp))

/-- A conditional branch: BranchTo if the condition holds, else PC stays after the instruction (R110). -/
def State.branchIf (s : State) (taken : Bool) (disp : Byte) : State :=
  if taken then s.branchTo (sext8 disp) else s

/-- The value of Inc(R, w) before it is merged (spec/43_incdec.md R120). -/
def incValue (r : Word) (w : Width) : Nat := wrap w ((low r w : Int) + 1)

/-- The value of Dec(R, w) before it is merged (R120). -/
def decValue (r : Word) (w : Width) : Nat := wrap w ((low r w : Int) - 1)

end Sys2Proof.Machine
end

