-- ==== Sys2Proof/Machine/Arithmetic.lean ====
section
/-! DEFINITION. The arithmetic family (spec/40_arithmetic.md). -/

namespace Sys2Proof.Machine

/-- ADC #imm (R90). -/
def execAdcImm (imm : Word) (s : State) : StepOutcome :=
  .next (s.storeAlu s.wA (addWithCarry (s.flag .D) (low s.a s.wA) (low imm s.wA) (s.flag .C) s.wA))

/-- SBC #imm (R91). -/
def execSbcImm (imm : Word) (s : State) : StepOutcome :=
  .next (s.storeAlu s.wA (subtractWithBorrow (s.flag .D) (low s.a s.wA) (low imm s.wA) (s.flag .C) s.wA))

end Sys2Proof.Machine
end

