-- ==== Sys2Proof/Machine/Branch.lean ====
section
/-! DEFINITION. The branch family (spec/42_branch.md). -/

namespace Sys2Proof.Machine

/-- BPL rel8 (R111). -/
def execBpl (disp : Byte) (s : State) : StepOutcome := .next (s.branchIf (!s.flag .N) disp)

/-- BMI rel8 (R112). -/
def execBmi (disp : Byte) (s : State) : StepOutcome := .next (s.branchIf (s.flag .N) disp)

/-- BCC rel8 (R113). -/
def execBcc (disp : Byte) (s : State) : StepOutcome := .next (s.branchIf (!s.flag .C) disp)

/-- BCS rel8 (R114). -/
def execBcs (disp : Byte) (s : State) : StepOutcome := .next (s.branchIf (s.flag .C) disp)

/-- BNE rel8 (R115). -/
def execBne (disp : Byte) (s : State) : StepOutcome := .next (s.branchIf (!s.flag .Z) disp)

/-- BEQ rel8 (R116). -/
def execBeq (disp : Byte) (s : State) : StepOutcome := .next (s.branchIf (s.flag .Z) disp)

/-- BRA rel8 (R117). -/
def execBra (disp : Byte) (s : State) : StepOutcome := .next (s.branchTo (sext8 disp))

/-- BRL rel16 (R118). K is not loaded. -/
def execBrl (disp : Word) (s : State) : StepOutcome := .next (s.branchTo (sext16 disp))

end Sys2Proof.Machine
end

