-- ==== Sys2Proof/Machine/Compare.lean ====
section
/-! DEFINITION. The compare family (spec/41_compare.md). -/

namespace Sys2Proof.Machine

/-- CMP #imm (R106). -/
def execCmpImm (imm : Word) (s : State) : StepOutcome :=
  .next (s.compare (low s.a s.wA) (low imm s.wA) s.wA)

/-- CPX #imm (R107). -/
def execCpxImm (imm : Word) (s : State) : StepOutcome :=
  .next (s.compare (low s.x s.wXY) (low imm s.wXY) s.wXY)

/-- CPY #imm (R108). -/
def execCpyImm (imm : Word) (s : State) : StepOutcome :=
  .next (s.compare (low s.y s.wXY) (low imm s.wXY) s.wXY)

end Sys2Proof.Machine
end

