-- ==== Sys2Proof/Machine/FlagControl.lean ====
section
/-! DEFINITION. The flag-control family (spec/44_flag_control.md). -/

namespace Sys2Proof.Machine

/-- CLC (R130). -/
def execClc (s : State) : StepOutcome := .next (s.setFlag .C false)

/-- SEC (R131). -/
def execSec (s : State) : StepOutcome := .next (s.setFlag .C true)

/-- CLD (R132). -/
def execCld (s : State) : StepOutcome := .next (s.setFlag .D false)

/-- SED (R133). -/
def execSed (s : State) : StepOutcome := .next (s.setFlag .D true)

/-- CLI (R134). -/
def execCli (s : State) : StepOutcome := .next (s.setFlag .I false)

/-- SEI (R135). -/
def execSei (s : State) : StepOutcome := .next (s.setFlag .I true)

/-- CLV (R136). -/
def execClv (s : State) : StepOutcome := .next (s.setFlag .V false)

/-- REP #imm8 (R137): the masked bits cleared, then x and m forced to 1 in emulation mode. A, X and Y are never
changed. -/
def execRep (mask : Byte) (s : State) : StepOutcome :=
  let s1 := s.withPs (s.ps &&& ~~~mask)
  .next (if s1.e then (s1.setFlag .x true).setFlag .m true else s1)

/-- SEP #imm8 (R138): the masked bits set, then X and Y truncated if x is 1 after the write. -/
def execSep (mask : Byte) (s : State) : StepOutcome :=
  let s1 := s.withPs (s.ps ||| mask)
  .next (if s1.flag .x then (s1.withX (truncateIndex s1.x)).withY (truncateIndex s1.y) else s1)

end Sys2Proof.Machine
end

