-- ==== Sys2Proof/Machine/IncDec.lean ====
section
/-! DEFINITION. The increment/decrement family (spec/43_incdec.md): the register gets the merged result and PS its
Z and N (R120). -/

namespace Sys2Proof.Machine

/-- INX (R121). -/
def execInx (s : State) : StepOutcome :=
  .next ((s.withX (merge s.x s.wXY (incValue s.x s.wXY))).withPs (putZN s.ps s.wXY (incValue s.x s.wXY)))

/-- INY (R122). -/
def execIny (s : State) : StepOutcome :=
  .next ((s.withY (merge s.y s.wXY (incValue s.y s.wXY))).withPs (putZN s.ps s.wXY (incValue s.y s.wXY)))

/-- DEX (R123). -/
def execDex (s : State) : StepOutcome :=
  .next ((s.withX (merge s.x s.wXY (decValue s.x s.wXY))).withPs (putZN s.ps s.wXY (decValue s.x s.wXY)))

/-- DEY (R124). -/
def execDey (s : State) : StepOutcome :=
  .next ((s.withY (merge s.y s.wXY (decValue s.y s.wXY))).withPs (putZN s.ps s.wXY (decValue s.y s.wXY)))

/-- INC A (R125). -/
def execIncA (s : State) : StepOutcome :=
  .next ((s.withA (merge s.a s.wA (incValue s.a s.wA))).withPs (putZN s.ps s.wA (incValue s.a s.wA)))

/-- DEC A (R126). -/
def execDecA (s : State) : StepOutcome :=
  .next ((s.withA (merge s.a s.wA (decValue s.a s.wA))).withPs (putZN s.ps s.wA (decValue s.a s.wA)))

end Sys2Proof.Machine
end

