-- ==== Sys2Proof/Machine/Jump.lean ====
section
/-! DEFINITION. The jump family (spec/45_jump.md). -/

namespace Sys2Proof.Machine

/-- JMP abs (R145): PC loaded, K unchanged. -/
def execJmpAbs (target : Word) (s : State) : StepOutcome := .next (s.withPc target)

/-- JML long (R146): PC from target[15:0], K from target[23:16]. -/
def execJmlLong (target : Addr) (s : State) : StepOutcome :=
  .next ((s.withPc (offsetWord target)).withK (bankByte target))

end Sys2Proof.Machine
end

