-- ==== Sys2Proof/Machine/Unimplemented.lean ====
section
/-! DEFINITION. The table's default row: every opcode byte without a handler (spec/30_encoding.md R74,
spec/60_exceptions.md R152). -/

namespace Sys2Proof.Machine

/-- UnimplementedOpcode, naming the opcode and its address. The state is the one after the opcode's Fetch8 and no
other, so the opcode stood at PC - 1 modulo 2^16 in bank K (log 3). -/
def execUnimplemented (opcode : Byte) (s : State) : StepOutcome :=
  raise (.unimplementedOpcode opcode (codeAddress s.k (s.pc - 1)))

end Sys2Proof.Machine
end

