-- ==== Sys2Proof/Machine/Dispatch.lean ====
section
/-! DEFINITION. One arm per constructor of Instr. The state given is the one after the instruction's bytes have been
fetched, PC past them (spec/00_scope.md R17, spec/60_exceptions.md R156; log 3). -/

namespace Sys2Proof.Machine

def exec (i : Instr) (s : State) : Host.Outcome State Fault Refusal :=
  match i with
  | .adcImm imm => Sys2Proof.Machine.execAdcImm imm s
  | .sbcImm imm => Sys2Proof.Machine.execSbcImm imm s
  | .cmpImm imm => Sys2Proof.Machine.execCmpImm imm s
  | .cpxImm imm => Sys2Proof.Machine.execCpxImm imm s
  | .cpyImm imm => Sys2Proof.Machine.execCpyImm imm s
  | .bpl disp => Sys2Proof.Machine.execBpl disp s
  | .bmi disp => Sys2Proof.Machine.execBmi disp s
  | .bcc disp => Sys2Proof.Machine.execBcc disp s
  | .bcs disp => Sys2Proof.Machine.execBcs disp s
  | .bne disp => Sys2Proof.Machine.execBne disp s
  | .beq disp => Sys2Proof.Machine.execBeq disp s
  | .bra disp => Sys2Proof.Machine.execBra disp s
  | .brl disp => Sys2Proof.Machine.execBrl disp s
  | .inx => Sys2Proof.Machine.execInx s
  | .iny => Sys2Proof.Machine.execIny s
  | .dex => Sys2Proof.Machine.execDex s
  | .dey => Sys2Proof.Machine.execDey s
  | .incA => Sys2Proof.Machine.execIncA s
  | .decA => Sys2Proof.Machine.execDecA s
  | .clc => Sys2Proof.Machine.execClc s
  | .sec => Sys2Proof.Machine.execSec s
  | .cld => Sys2Proof.Machine.execCld s
  | .sed => Sys2Proof.Machine.execSed s
  | .cli => Sys2Proof.Machine.execCli s
  | .sei => Sys2Proof.Machine.execSei s
  | .clv => Sys2Proof.Machine.execClv s
  | .rep mask => Sys2Proof.Machine.execRep mask s
  | .sep mask => Sys2Proof.Machine.execSep mask s
  | .jmpAbs target => Sys2Proof.Machine.execJmpAbs target s
  | .jmlLong target => Sys2Proof.Machine.execJmlLong target s
  | .unimplemented opcode => Sys2Proof.Machine.execUnimplemented opcode s

end Sys2Proof.Machine
end

