-- ==== Sys2Proof/Machine/Placement.lean ====
section
/-! DEFINITION. Putting an instruction where the next fetch reads it, from outside the machine (log 2). -/

namespace Sys2Proof.Machine

/-- The addresses of `n` instruction-stream bytes from K:PC on, PC wrapping inside the bank (spec/00_scope.md R13). -/
def streamAddresses (k : Byte) : Word → Nat → List Addr
  | _, 0 => []
  | pc, n + 1 => codeAddress k pc :: streamAddresses k (pc + 1) n

/-- Bytes placed at a list of addresses, one each. -/
def placeBytes : Bus → List Addr → List Byte → Bus
  | b, addr :: addrs, v :: vs => placeBytes (b.place addr v) addrs vs
  | b, _, _ => b

/-- The state with these four bytes where its next fetch reads them, and running. If one of the four addresses is no
storage, where no byte can stand, the fetch is first moved to 0x7E:0000, the start of RAM. -/
def placeProgram (s : State) (bytes : List Byte) : State :=
  let here := streamAddresses s.k s.pc 4
  if here.all isStorage then (s.withBus (placeBytes s.bus here bytes)).withStatus .running
  else (((s.withK 0x7E).withPc 0x0000).withBus
    (placeBytes s.bus (streamAddresses 0x7E 0x0000 4) bytes)).withStatus .running

end Sys2Proof.Machine
end

