-- ==== Sys2Proof/Machine/Step.lean ====
section
/-! DEFINITION. One step of the core (spec/30_encoding.md R78, spec/60_exceptions.md R150). -/

namespace Sys2Proof.Machine

/-- Fetch one instruction, then run its rule. No step follows a fault (R150; spec/10_state.md R43). -/
def step (s : State) : Host.Outcome State Fault Refusal :=
  match s.status with
  | .faulted _ => .refused .stepAfterFault
  | .running =>
    match fetchInstr s with
    | .error f => raise f
    | .ok (i, s') => exec i s'

/-- The state whose next fetch reads the table word `w` (the bits from `nbits` up zero): a program loaded from outside
(log 2). -/
def State.withFetchWord (s : State) (nbits w : Nat) : State := placeProgram s (tableBytes nbits w)

end Sys2Proof.Machine
end

