-- ==== Sys2Proof/Machine/Loader.lean ====
section
/-! DEFINITION. The cartridge loader, outside the core block (spec/60_exceptions.md R154, R167;
spec/70_reset_and_hazards.md R173). -/

namespace Sys2Proof.Machine

/-- validate(bytes) for a content hash and a reference digest: the image, or RomValidationError unless the length is
524288 and the hash is the digest (R154). -/
def validateWith (hash : List Byte → Nat) (digest : Nat) (bytes : List Byte) : Except Fault Memory :=
  if bytes.length = Config.romSize ∧ hash bytes = digest then .ok (Memory.ofBytes bytes)
  else .error .romValidationError

/-- Load, then construct: the boot sequence of R173. A rejected image constructs nothing (R154). -/
def loadWith (hash : List Byte → Nat) (digest : Nat) (bytes : List Byte) (ramInit : Memory) : Except Fault State :=
  match validateWith hash digest bytes with
  | .ok image => .ok (State.construct image ramInit)
  | .error f => .error f

/-- The loader of this hardware, with the hash and the digest that the spec does not give (log 7). -/
def loadCartridge (bytes : List Byte) (ramInit : Memory) : Except Fault State :=
  loadWith Config.contentHash Config.referenceDigest bytes ramInit

end Sys2Proof.Machine
end

