-- ==== Sys2Proof/Safety.lean ====
section
/-! DEFINITION. What a safe run is, and the words the claims are stated in. -/

namespace Sys2Proof.Machine

/-! ### Runs -/

/-- The step completes. -/
def Safe (s : State) : Prop := ∃ t, step s = .next t

/-- One step with the faulted state kept: the next state, or the state at the start of the step with run status
Faulted (spec/60_exceptions.md R150); a faulted state stays as it is (spec/10_state.md R43). -/
def advance (s : State) : State :=
  match step s with
  | .next t => t
  | .fault f => recordFault s f
  | .refused _ => s

/-- `n` times `advance`. -/
def advanceN : Nat → State → State
  | 0, s => s
  | n + 1, s => advanceN n (advance s)

/-- `bytes` stand in the instruction stream from K:PC on, PC wrapping inside the bank (spec/00_scope.md R13,
spec/30_encoding.md R72). -/
def CodeBytes (s : State) (bytes : List Byte) : Prop :=
  ∀ k (h : k < bytes.length), memRead s (codeAddress s.k (s.pc + BitVec.ofNat 16 k)) = .ok bytes[k]

/-- The faults of an instruction with operand bytes: where the opcode byte `op` is read and one of its operand bytes is
not, the step ends in the first such byte's bus fault (spec/60_exceptions.md R153, R155). -/
def OperandFetchFaults (op : Byte) : Prop :=
  ∀ (s : State) (f : Fault) (n : Nat), s.status = .running → memRead s (codeAddress s.k s.pc) = .ok op →
    n < operandCount (widthsOf s.ps) op →
    (∀ j < n, ∃ b, memRead s (codeAddress s.k (s.pc + BitVec.ofNat 16 (1 + j))) = .ok b) →
    memRead s (codeAddress s.k (s.pc + BitVec.ofNat 16 (1 + n))) = .error f → step s = .fault f

/-- Halted at h: the next instruction is at h and is BRA to itself (R168). -/
def HaltedAt (h : Addr) (s : State) : Prop :=
  s.status = .running ∧ codeAddress s.k s.pc = h ∧ CodeBytes s [0x80, 0xFE]

/-- An outcome with its next state changed by `g`, a fault or refusal kept. -/
def mapState (g : State → State) : StepOutcome → StepOutcome
  | .next t => .next (g t)
  | .fault f => .fault f
  | .refused r => .refused r

/-! ### Frames -/

/-- Every address reads as before. -/
def SameMemory (s t : State) : Prop := ∀ addr, memRead t addr = memRead s addr

/-- Every flag outside the list is as before. -/
def SameFlagsBut (written : List Flag) (s t : State) : Prop := ∀ f, f ∉ written → t.flag f = s.flag f

/-- What no admitted instruction writes: SP, D, DBR, E and the run status (spec/10_state.md R23, R24, R37, R40). -/
def SameSystem (s t : State) : Prop :=
  t.sp = s.sp ∧ t.d = s.d ∧ t.dbr = s.dbr ∧ t.e = s.e ∧ t.status = s.status

/-- PC and K are as before. -/
def SamePlace (s t : State) : Prop := t.pc = s.pc ∧ t.k = s.k

/-- A, X and Y are as before. -/
def SameRegisters (s t : State) : Prop := t.a = s.a ∧ t.x = s.x ∧ t.y = s.y

/-- Z and N are those of a width-w result (spec/00_scope.md R16). -/
def ZeroNegativeOf (t : State) (w : Width) (r : Nat) : Prop :=
  t.flag .Z = decide (r = 0) ∧ t.flag .N = signBit w r

/-- A result (r, c, v) of width w written as ADC and SBC write it (spec/40_arithmetic.md R90, R91): A with its hidden
byte kept, C, V, Z and N; all else as before. -/
def WritesAluResult (s t : State) (w : Width) (res : AluResult) : Prop :=
  low t.a w = res.r ∧ (w = .w8 → highByte t.a = highByte s.a) ∧ t.flag .C = res.c ∧ t.flag .V = res.v ∧
    ZeroNegativeOf t w res.r ∧ SameFlagsBut [.C, .V, .Z, .N] s t ∧ t.x = s.x ∧ t.y = s.y ∧
    SamePlace s t ∧ SameSystem s t ∧ SameMemory s t

/-- The compare of a width-w register value with an operand, as spec/41_compare.md R105 has it: C, Z and N written from
the unsigned order and the wrapping difference; all else as before. -/
def WritesCompareFlags (s t : State) (w : Width) (reg op : Nat) : Prop :=
  t.flag .C = decide (op ≤ reg) ∧ ZeroNegativeOf t w ((reg + (w.modulus - op)) % w.modulus) ∧
    SameFlagsBut [.C, .Z, .N] s t ∧ SameRegisters s t ∧ SamePlace s t ∧ SameSystem s t ∧ SameMemory s t

/-- A width-w register after the value r is written, its hidden byte kept, with Z and N of r and no other flag
(spec/43_incdec.md R120); place, system registers and memory as before. -/
def WritesRegister (s t : State) (w : Width) (before after : Word) (r : Nat) : Prop :=
  low after w = r ∧ (w = .w8 → highByte after = highByte before) ∧ ZeroNegativeOf t w r ∧
    SameFlagsBut [.Z, .N] s t ∧ SamePlace s t ∧ SameSystem s t ∧ SameMemory s t

/-- The flags an instruction may write: an instruction has a flag in its list exactly if the flag's rule has the
instruction under "Written by" (spec/10_state.md R28 to R35). -/
def flagsWritten : Instr → List Flag
  | .adcImm _ => [.C, .Z, .V, .N]
  | .sbcImm _ => [.C, .Z, .V, .N]
  | .cmpImm _ => [.C, .Z, .N]
  | .cpxImm _ => [.C, .Z, .N]
  | .cpyImm _ => [.C, .Z, .N]
  | .bpl _ => []
  | .bmi _ => []
  | .bcc _ => []
  | .bcs _ => []
  | .bne _ => []
  | .beq _ => []
  | .bra _ => []
  | .brl _ => []
  | .inx => [.Z, .N]
  | .iny => [.Z, .N]
  | .dex => [.Z, .N]
  | .dey => [.Z, .N]
  | .incA => [.Z, .N]
  | .decA => [.Z, .N]
  | .clc => [.C]
  | .sec => [.C]
  | .cld => [.D]
  | .sed => [.D]
  | .cli => [.I]
  | .sei => [.I]
  | .clv => [.V]
  | .rep _ => [.C, .Z, .I, .D, .x, .m, .V, .N]
  | .sep _ => [.C, .Z, .I, .D, .x, .m, .V, .N]
  | .jmpAbs _ => []
  | .jmlLong _ => []
  | .unimplemented _ => []

/-! ### Number readings -/

/-- The two's complement value of a width-w number (spec/00_scope.md R10). -/
def signedValue (w : Width) (v : Nat) : Int := if v < w.modulus / 2 then (v : Int) else (v : Int) - w.modulus

/-- Every nibble is 0..9 (spec/40_arithmetic.md R98). -/
def IsBcd (v : Nat) : Prop := v % 16 ≤ 9 ∧ v / 16 % 16 ≤ 9 ∧ v / 256 % 16 ≤ 9 ∧ v / 4096 % 16 ≤ 9

/-- dec(v), of a value of at most four digits (R98). -/
def bcdValue (v : Nat) : Nat := v % 16 + 10 * (v / 16 % 16) + 100 * (v / 256 % 16) + 1000 * (v / 4096 % 16)

/-- bcd_w(n), of n < 10^(w/4) (R98). -/
def bcdSpelling (n : Nat) : Nat := n % 10 + 16 * (n / 10 % 10) + 256 * (n / 100 % 10) + 4096 * (n / 1000 % 10)

/-- 10^(w/4) (R98). -/
def Width.decimalModulus : Width → Nat
  | .w8 => 100
  | .w16 => 10000

/-! ### The address map -/

/-- The per-bank map of spec/20_memory.md R63: one line per row of its table, one answer per column. -/
def bankMap (bank offset : Nat) : Region :=
  if bank ≤ 0x3F ∨ (0x80 ≤ bank ∧ bank ≤ 0xBF) then
    if offset ≤ 0x1FFF then .ram offset
    else if offset ≤ 0x2FFF then .reserved .hardwareRegisters
    else if offset ≤ 0x3FFF then .openBus
    else if offset ≤ 0x4FFF then .reserved .reservedIO
    else if offset ≤ 0x7FFF then .openBus
    else .rom ((bank % 16) * 0x8000 + (offset - 0x8000))
  else if bank ≤ 0x6F ∨ (0xC0 ≤ bank ∧ bank ≤ 0xEF) then
    if offset ≤ 0x7FFF then .openBus else .rom ((bank % 16) * 0x8000 + (offset - 0x8000))
  else if bank ≤ 0x7D ∨ 0xF0 ≤ bank then
    if offset ≤ 0x7FFF then .reserved .saveRam else .rom ((bank % 16) * 0x8000 + (offset - 0x8000))
  else if bank = 0x7E then .ram offset
  else .ram (0x10000 + offset)

/-! ### The invariant of every state reachable from construction -/

/-- spec/10_state.md R45, for a core constructed with this image and this initial RAM, still running. -/
structure ReachInv (romImage ramInit : Memory) (s : State) : Prop where
  emulation : s.e = true
  stackPointer : s.sp = 0x01FF
  directPage : s.d = 0x0000
  dataBank : s.dbr = 0x00
  rom : s.bus.rom = romImage
  ram : s.bus.ram = ramInit
  running : s.status = .running

end Sys2Proof.Machine
end

