-- ==== Sys2Proof/Certificates/Slice0/Obligations.lean ====
section
/-! DEFINITION. The statements for the provers. Each docstring names the rule of spec/ it formalises. -/

open Sys2Proof Sys2Proof.Machine

/-! ### Encoding -/

/-- Decoding an encoded well-formed instruction gives it back, whatever bytes follow (30_encoding.md R71 to R77). -/
def Obligations.DecodeOfEncodeGivesTheInstruction : Prop :=
  ∀ (c : Widths) (i : Instr) (rest : List Byte),
    WellFormed c i = true → decode c (encode c i ++ rest) = .ok (i, rest)

/-- Whatever the decoder reads is well formed and is encoded by exactly the bytes read: no encoding has two spellings
and the decoder drops no bit. -/
def Obligations.EncodeOfDecodeGivesTheBytes : Prop :=
  ∀ (c : Widths) (bytes rest : List Byte) (i : Instr),
    decode c bytes = .ok (i, rest) → WellFormed c i = true ∧ encode c i ++ rest = bytes

/-- R83: the decoder is total on the 256 byte values. 30 select an instruction, the other 226 the default row, which
takes no operand and whose meaning is the UnimplementedOpcode fault; the length of imm_m and imm_x bytes follows PS.m
and PS.x. -/
def Obligations.EveryOpcodeByteHasOneOutcome : Prop :=
  admittedOpcodes.length = 30 ∧ admittedOpcodes.Nodup ∧
  (∀ (c : Widths) (op b1 b2 b3 : Byte), op ∈ admittedOpcodes →
    ∃ i rest, decode c [op, b1, b2, b3] = .ok (i, rest) ∧ ∀ o, i ≠ .unimplemented o) ∧
  (∀ (c : Widths) (op : Byte) (rest : List Byte), op ∉ admittedOpcodes →
    decode c (op :: rest) = .ok (.unimplemented op, rest)) ∧
  (∀ (op : Byte) (s : State), ∃ addr, exec (.unimplemented op) s = .fault (.unimplementedOpcode op addr)) ∧
  (∀ (c : Widths) (op b1 b2 b3 : Byte), op ∈ ([0x69, 0xE9, 0xC9] : List Byte) →
    ∃ i, decode c [op, b1, b2, b3] = .ok (i, if c.m8 then [b2, b3] else [b3])) ∧
  (∀ (c : Widths) (op b1 b2 b3 : Byte), op ∈ ([0xE0, 0xC0] : List Byte) →
    ∃ i, decode c [op, b1, b2, b3] = .ok (i, if c.x8 then [b2, b3] else [b3]))

/-- Sanity: one word of each family, its bits written out from R71 and R72, decodes to its instruction. -/
def Obligations.SampleWordsDecode : Prop :=
  decode ⟨true, true⟩ [0b01101001, 0b01000101] = .ok (.adcImm 0x0045, []) ∧
  decode ⟨false, true⟩ [0b11101001, 0b00000001, 0b10000000] = .ok (.sbcImm 0x8001, []) ∧
  decode ⟨true, false⟩ [0b11100000, 0b00000110, 0b00010010] = .ok (.cpxImm 0x1206, []) ∧
  decode ⟨false, false⟩ [0b11010000, 0b11111011] = .ok (.bne 0xFB, []) ∧
  decode ⟨false, false⟩ [0b10000010, 0b11111101, 0b01111111] = .ok (.brl 0x7FFD, []) ∧
  decode ⟨false, false⟩ [0b00111010] = .ok (.decA, []) ∧
  decode ⟨false, false⟩ [0b11100010, 0b00010000] = .ok (.sep 0x10, []) ∧
  decode ⟨false, false⟩ [0b01011100, 0b00010000, 0b10000001, 0b01111110] = .ok (.jmlLong 0x7E8110, [])

/-! ### The step -/

/-- A step of a running state whose instruction stream holds exactly an instruction's bytes is that instruction, on the
state with PC past them (30_encoding.md R70, R78; PC wraps inside the bank, 00_scope.md R13). That the instruction is
given the state with PC past it is the model's convention, log 3. -/
def Obligations.StepRunsTheDecodedInstruction : Prop :=
  ∀ (s : State) (bytes : List Byte) (i : Instr), s.status = .running →
    decode (widthsOf s.ps) bytes = .ok (i, []) → CodeBytes s bytes →
    step s = exec i (s.withPc (s.pc + BitVec.ofNat 16 bytes.length))

/-- R155: the first fault in fetch order ends the step: the opcode fetch, then the unimplemented opcode, then operand
bytes 1, 2 and 3. -/
def Obligations.FirstFaultInFetchOrderEndsTheStep : Prop :=
  ∀ s : State, s.status = .running →
    (∀ f, memRead s (codeAddress s.k s.pc) = .error f → step s = .fault f) ∧
    (∀ op, memRead s (codeAddress s.k s.pc) = .ok op → op ∉ admittedOpcodes →
      step s = .fault (.unimplementedOpcode op (codeAddress s.k s.pc))) ∧
    (∀ op f n, memRead s (codeAddress s.k s.pc) = .ok op → op ∈ admittedOpcodes →
      n < operandCount (widthsOf s.ps) op →
      (∀ j < n, ∃ b, memRead s (codeAddress s.k (s.pc + BitVec.ofNat 16 (1 + j))) = .ok b) →
      memRead s (codeAddress s.k (s.pc + BitVec.ofNat 16 (1 + n))) = .error f → step s = .fault f)

/-- An unimplemented opcode byte (60_exceptions.md R152, 30_encoding.md R74): a byte outside R71 (256 - 30 of them)
fetched as an opcode raises UnimplementedOpcode with that byte and its own address, whatever stands after it. The second
clause is the model's convention, log 3 (DEDUCED): `exec` is given the state with PC past the opcode, so the default row
finds it at PC - 1. -/
def Obligations.UnimplementedOpcodeFaultsAtItsAddress : Prop :=
  (admittedOpcodes.length = 30 ∧ admittedOpcodes.Nodup) ∧
  (∀ (op : Byte) (s : State),
    exec (.unimplemented op) s = .fault (.unimplementedOpcode op (codeAddress s.k (s.pc - 1)))) ∧
  (∀ (op : Byte) (s : State), s.status = .running → memRead s (codeAddress s.k s.pc) = .ok op →
    op ∉ admittedOpcodes → step s = .fault (.unimplementedOpcode op (codeAddress s.k s.pc)))

/-- R150: a step of a running state ends in a running next state or in a fault whose faulted state is the state at the
start of the step, and is never refused; a faulted state has no next state and stays as it is. -/
def Obligations.RunningStepEndsInNextStateOrFault : Prop :=
  (∀ s : State, s.status = .running →
    (∃ t, step s = .next t ∧ t.status = .running ∧ advance s = t) ∨
    (∃ f, step s = .fault f ∧ advance s = { s with status := .faulted f })) ∧
  (∀ (s : State) (f : Fault), s.status = .faulted f → (∀ t, step s ≠ .next t) ∧ advance s = s)

/-- The fault taxonomy as a step meets it (R151, R153): a fault of a step is UnimplementedOpcode of the byte at K:PC, or
the bus fault of an instruction-stream byte: a read, its own address, and the region that address decodes to. -/
def Obligations.StepFaultsAreFetchFaults : Prop :=
  ∀ (s : State) (f : Fault), step s = .fault f →
    (∃ op, memRead s (codeAddress s.k s.pc) = .ok op ∧ op ∉ admittedOpcodes ∧
      f = .unimplementedOpcode op (codeAddress s.k s.pc) ∧ faultCode f = 2) ∨
    (∃ n ≤ 3, ∃ addr, addr = codeAddress s.k (s.pc + BitVec.ofNat 16 n) ∧
      ((decodeAddress addr = .openBus ∧ f = .unmappedAccess addr .read ∧ faultCode f = 3) ∨
       (∃ r, decodeAddress addr = .reserved r ∧ f = .reservedRegionAccess addr .read r ∧ faultCode f = 4)))

/-- R43: construction sets Running; a fault sets Faulted for good, and no step follows it. -/
def Obligations.FaultedStateIsTerminal : Prop :=
  (∀ romImage ramInit, (State.construct romImage ramInit).status = .running) ∧
  (∀ (s : State) (f : Fault), step s = .fault f →
    ∀ n, advanceN (n + 1) s = { s with status := .faulted f }) ∧
  (∀ (s t : State) (f : Fault), s.status = .faulted f → step s ≠ .next t)

/-- Every admitted instruction completes in every state: once its bytes are fetched nothing can stop it (R150, R156;
20_memory.md R60). SP, D, DBR, E, the run status and every byte of memory are as before. -/
def Obligations.AdmittedInstructionsAlwaysComplete : Prop :=
  ∀ (i : Instr) (s : State), (∀ op, i ≠ .unimplemented op) →
    ∃ t, exec i s = .next t ∧ SameSystem s t ∧ SameMemory s t

/-- R38: a step that is no branch or jump leaves PC after the instruction's last byte, modulo 2^16, and K alone. -/
def Obligations.StraightLineStepAdvancesPc : Prop :=
  ∀ (s t : State) (op : Byte), memRead s (codeAddress s.k s.pc) = .ok op →
    op ∉ ([0x10, 0x30, 0x90, 0xB0, 0xD0, 0xF0, 0x80, 0x82, 0x4C, 0x5C] : List Byte) → step s = .next t →
    t.pc = s.pc + BitVec.ofNat 16 (1 + operandCount (widthsOf s.ps) op) ∧ t.k = s.k

/-- R147, laws 1 and 2: only JML (opcode 0x5C) changes the program bank. -/
def Obligations.OnlyJmlChangesTheBank : Prop :=
  ∀ s t : State, step s = .next t → t.k ≠ s.k → memRead s (codeAddress s.k s.pc) = .ok 0x5C

/-! ### Whole-machine rules -/

/-- R28 to R35: a flag changes only by an instruction its rule lists under "Written by". -/
def Obligations.FlagsChangeOnlyByTheirWriters : Prop :=
  ∀ (i : Instr) (s t : State) (f : Flag), exec i s = .next t → t.flag f ≠ s.flag f → f ∈ flagsWritten i

/-- R21, R22: A changes only by ADC, SBC, INC A and DEC A; X only by INX, DEX and SEP; Y only by INY, DEY and SEP. -/
def Obligations.RegistersChangeOnlyByTheirWriters : Prop :=
  ∀ (i : Instr) (s t : State), exec i s = .next t →
    (t.a ≠ s.a → (∃ v, i = .adcImm v) ∨ (∃ v, i = .sbcImm v) ∨ i = .incA ∨ i = .decA) ∧
    (t.x ≠ s.x → i = .inx ∨ i = .dex ∨ ∃ v, i = .sep v) ∧
    (t.y ≠ s.y → i = .iny ∨ i = .dey ∨ ∃ v, i = .sep v)

/-- R23, R24, R40: SP, D and DBR have their reset values and are never read or written. Two states that differ in them
alone make steps that differ in them alone, and a step keeps them. -/
def Obligations.UnusedRegistersNeverMatter : Prop :=
  (∀ romImage ramInit, (State.construct romImage ramInit).sp = 0x01FF ∧
    (State.construct romImage ramInit).d = 0x0000 ∧ (State.construct romImage ramInit).dbr = 0x00) ∧
  (∀ s t : State, step s = .next t → t.sp = s.sp ∧ t.d = s.d ∧ t.dbr = s.dbr) ∧
  (∀ (s : State) (sp d : Word) (dbr : Byte),
    step { s with sp := sp, d := d, dbr := dbr } =
      mapState (fun t => { t with sp := sp, d := d, dbr := dbr }) (step s))

/-- R161: every admitted instruction runs in every state, and the emulation bit changes REP (opcode 0xC2) and nothing
else, decoding included. -/
def Obligations.EmulationBitMattersOnlyToRep : Prop :=
  (∀ (i : Instr) (s : State), (∀ op, i ≠ .unimplemented op) → ∃ t, exec i s = .next t) ∧
  (∀ (s : State) (b : Bool), memRead s (codeAddress s.k s.pc) ≠ .ok 0xC2 →
    step { s with e := b } = mapState (fun t => { t with e := b }) (step s))

/-- R160: PS.I is set by construction, written by CLI, SEI, REP and SEP, masks nothing and changes no instruction's
behaviour: two states that differ in I alone make steps that differ in I at most. -/
def Obligations.IrqDisableChangesNothingElse : Prop :=
  (∀ romImage ramInit, (State.construct romImage ramInit).flag .I = true) ∧
  (∀ (i : Instr) (s t : State), exec i s = .next t → t.flag .I ≠ s.flag .I →
    i = .cli ∨ i = .sei ∨ (∃ mask, i = .rep mask) ∨ ∃ mask, i = .sep mask) ∧
  (∀ (s : State) (b c : Bool),
    mapState (fun t => t.setFlag .I c) (step (s.setFlag .I b)) = mapState (fun t => t.setFlag .I c) (step s))

/-- R100: PS.D matters to ADC and SBC only; every other instruction does the same whatever it is. -/
def Obligations.DecimalFlagMattersOnlyToAdcAndSbc : Prop :=
  ∀ (i : Instr) (s : State) (b c : Bool), (∀ imm, i ≠ .adcImm imm) → (∀ imm, i ≠ .sbcImm imm) →
    mapState (fun t => t.setFlag .D c) (exec i (s.setFlag .D b)) = mapState (fun t => t.setFlag .D c) (exec i s)

/-- R26: at 8-bit width the hidden byte persists, except where SEP truncates; changing m never changes A, and changing
x changes X and Y only through SEP. -/
def Obligations.HiddenBytesPersist : Prop :=
  ∀ (i : Instr) (s t : State), exec i s = .next t →
    (s.flag .m = true → highByte t.a = highByte s.a) ∧
    (s.flag .x = true → (∀ mask, i ≠ .sep mask) → highByte t.x = highByte s.x ∧ highByte t.y = highByte s.y) ∧
    (t.flag .m ≠ s.flag .m → t.a = s.a) ∧
    (t.flag .x ≠ s.flag .x → (∀ mask, i ≠ .sep mask) → t.x = s.x ∧ t.y = s.y)

/-! ### Arithmetic -/

/-- R90: ADC #imm. The width is PS.m's, PS.D picks the adder; A, C, V, Z and N are written and nothing else; an operand
byte that cannot be read faults. -/
def Obligations.AdcWritesItsAdderResult : Prop :=
  (∀ (c : Widths) (imm : Word),
    encode c (.adcImm imm) = if c.m8 then [0x69, lowByte imm] else [0x69, lowByte imm, highByte imm]) ∧
  OperandFetchFaults 0x69 ∧
  (∀ (imm : Word) (s : State), s.flag .m = true → ∃ t, exec (.adcImm imm) s = .next t ∧
    WritesAluResult s t .w8 (if s.flag .D then addBcd8 (low s.a .w8) (low imm .w8) (s.flag .C)
      else addBin (low s.a .w8) (low imm .w8) (s.flag .C) .w8)) ∧
  (∀ (imm : Word) (s : State), s.flag .m = false → ∃ t, exec (.adcImm imm) s = .next t ∧
    WritesAluResult s t .w16 (if s.flag .D then addBcd16 s.a.toNat imm.toNat (s.flag .C)
      else addBin s.a.toNat imm.toNat (s.flag .C) .w16))

/-- R91: SBC #imm, on the complement of the immediate, written and faulting as ADC. -/
def Obligations.SbcWritesItsAdderResult : Prop :=
  (∀ (c : Widths) (imm : Word),
    encode c (.sbcImm imm) = if c.m8 then [0xE9, lowByte imm] else [0xE9, lowByte imm, highByte imm]) ∧
  OperandFetchFaults 0xE9 ∧
  (∀ (imm : Word) (s : State), s.flag .m = true → ∃ t, exec (.sbcImm imm) s = .next t ∧
    WritesAluResult s t .w8 (if s.flag .D then subBcd8 (low s.a .w8) (0xFF - low imm .w8) (s.flag .C)
      else addBin (low s.a .w8) (0xFF - low imm .w8) (s.flag .C) .w8)) ∧
  (∀ (imm : Word) (s : State), s.flag .m = false → ∃ t, exec (.sbcImm imm) s = .next t ∧
    WritesAluResult s t .w16 (if s.flag .D then subBcd16 s.a.toNat (0xFFFF - imm.toNat) (s.flag .C)
      else addBin s.a.toNat (0xFFFF - imm.toNat) (s.flag .C) .w16))

/-- R92: the sum modulo 2^w, C the unsigned overflow, V the sign formula; and V is the signed overflow. -/
def Obligations.BinaryAdderIsExactModuloTheWidth : Prop :=
  ∀ (w : Width) (a b : Nat) (cin : Bool), a < w.modulus → b < w.modulus →
    (addBin a b cin w).r = (a + b + cin.toNat) % w.modulus ∧
    ((addBin a b cin w).c = true ↔ w.modulus ≤ a + b + cin.toNat) ∧
    ((addBin a b cin w).v = true ↔
      signBit w a = signBit w b ∧ signBit w a ≠ signBit w (addBin a b cin w).r) ∧
    ((addBin a b cin w).v = true ↔
      signedValue w a + signedValue w b + cin.toNat < -((w.modulus / 2 : Nat) : Int) ∨
      ((w.modulus / 2 : Nat) : Int) ≤ signedValue w a + signedValue w b + cin.toNat)

/-- R98: on valid BCD operands ADC and SBC are decimal addition and subtraction modulo 10^(w/4), with C the decimal
carry and the absence of borrow; on other operands the algorithm's result, for example 0x0F + 0x01 = 0x16. -/
def Obligations.BcdUnitIsDecimalArithmetic : Prop :=
  (∀ (imm : Word) (s : State), s.flag .D = true → IsBcd (low s.a s.wA) → IsBcd (low imm s.wA) →
    (∃ t, exec (.adcImm imm) s = .next t ∧
      low t.a s.wA = bcdSpelling
        ((bcdValue (low s.a s.wA) + bcdValue (low imm s.wA) + (s.flag .C).toNat) % s.wA.decimalModulus) ∧
      (t.flag .C = true ↔
        s.wA.decimalModulus ≤ bcdValue (low s.a s.wA) + bcdValue (low imm s.wA) + (s.flag .C).toNat)) ∧
    (∃ t, exec (.sbcImm imm) s = .next t ∧
      low t.a s.wA = bcdSpelling (((bcdValue (low s.a s.wA) : Int) - bcdValue (low imm s.wA) -
        (1 - (s.flag .C).toNat)) % s.wA.decimalModulus).toNat ∧
      (t.flag .C = true ↔
        0 ≤ (bcdValue (low s.a s.wA) : Int) - bcdValue (low imm s.wA) - (1 - (s.flag .C).toNat)))) ∧
  (addBcd8 0x0F 0x01 false).r = 0x16

/-- The complement law of 40_arithmetic.md R99: with PS.D = 0, SBC #imm is ADC of the complement, in every register and
flag; with PS.D = 1 it is not. The operand is written as the 16-bit complement whatever the width. At m = 1 that this is
the 8-bit complement 0xFF - imm rests on the model's convention, log 4 (DESIGN CHOICE): an immediate is held in 16 bits
and a meaning reads its low byte alone. -/
def Obligations.SbcIsAdcOfTheComplementInBinaryMode : Prop :=
  (∀ (imm : Word) (s : State), s.flag .D = false → exec (.sbcImm imm) s = exec (.adcImm (~~~imm)) s) ∧
  (∃ s t u : State, s.flag .D = true ∧ s.flag .m = true ∧ s.flag .C = true ∧ low s.a .w8 = 0x10 ∧
    exec (.sbcImm 0x01) s = .next t ∧ low t.a .w8 = 0x09 ∧
    exec (.adcImm 0xFE) s = .next u ∧ low u.a .w8 = 0x75)

/-- R101: the binary adder and both BCD adders are commutative, C and V included. -/
def Obligations.AddersAreCommutative : Prop :=
  ∀ (a b : Nat) (cin : Bool), (∀ w, addBin a b cin w = addBin b a cin w) ∧
    addBcd8 a b cin = addBcd8 b a cin ∧ addBcd16 a b cin = addBcd16 b a cin

/-! ### Compare -/

/-- R105 to R108, CMP, CPX and CPY: C, Z and N from the width-w comparison, nothing written back; an operand byte that
cannot be read faults. -/
def Obligations.CompareWritesOnlyItsFlags : Prop :=
  (∀ (c : Widths) (imm : Word),
    encode c (.cmpImm imm) = (if c.m8 then [0xC9, lowByte imm] else [0xC9, lowByte imm, highByte imm]) ∧
    encode c (.cpxImm imm) = (if c.x8 then [0xE0, lowByte imm] else [0xE0, lowByte imm, highByte imm]) ∧
    encode c (.cpyImm imm) = (if c.x8 then [0xC0, lowByte imm] else [0xC0, lowByte imm, highByte imm])) ∧
  (∀ op ∈ ([0xC9, 0xE0, 0xC0] : List Byte), OperandFetchFaults op) ∧
  ∀ (imm : Word) (s : State),
    (∃ t, exec (.cmpImm imm) s = .next t ∧
      WritesCompareFlags s t (if s.flag .m then .w8 else .w16) (low s.a (if s.flag .m then .w8 else .w16))
        (low imm (if s.flag .m then .w8 else .w16))) ∧
    (∃ t, exec (.cpxImm imm) s = .next t ∧
      WritesCompareFlags s t (if s.flag .x then .w8 else .w16) (low s.x (if s.flag .x then .w8 else .w16))
        (low imm (if s.flag .x then .w8 else .w16))) ∧
    (∃ t, exec (.cpyImm imm) s = .next t ∧
      WritesCompareFlags s t (if s.flag .x then .w8 else .w16) (low s.y (if s.flag .x then .w8 else .w16))
        (low imm (if s.flag .x then .w8 else .w16)))

/-- R109, laws 2, 3 and 5: after CMP, C and Z together hold exactly on equality, C = 0 exactly on unsigned less; BCS is
taken exactly when A >= op and BEQ exactly when A = op. -/
def Obligations.CompareThenBranchDecidesTheOrder : Prop :=
  ∀ (imm : Word) (disp : Byte) (s t : State), exec (.cmpImm imm) s = .next t →
    ((t.flag .C = true ∧ t.flag .Z = true) ↔ low s.a s.wA = low imm s.wA) ∧
    (t.flag .C = false ↔ low s.a s.wA < low imm s.wA) ∧
    exec (.bcs disp) t = .next (if low imm s.wA ≤ low s.a s.wA then t.withPc (t.pc + disp.signExtend 16) else t) ∧
    exec (.beq disp) t = .next (if low s.a s.wA = low imm s.wA then t.withPc (t.pc + disp.signExtend 16) else t)

/-! ### Branches and jumps -/

/-- R110 to R116: each conditional branch tests one flag; taken, it adds the sign-extended displacement to PC modulo
2^16; not taken, it changes nothing. The state is the one with PC after the branch. A displacement byte that cannot be
read faults. -/
def Obligations.ConditionalBranchesTestOneFlag : Prop :=
  (∀ (c : Widths) (d : Byte), encode c (.bpl d) = [0x10, d] ∧ encode c (.bmi d) = [0x30, d] ∧
    encode c (.bcc d) = [0x90, d] ∧ encode c (.bcs d) = [0xB0, d] ∧ encode c (.bne d) = [0xD0, d] ∧
    encode c (.beq d) = [0xF0, d]) ∧
  (∀ op ∈ ([0x10, 0x30, 0x90, 0xB0, 0xD0, 0xF0] : List Byte), OperandFetchFaults op) ∧
  (∀ (d : Byte) (s : State),
    exec (.bpl d) s = .next (if s.flag .N = false then { s with pc := s.pc + d.signExtend 16 } else s) ∧
    exec (.bmi d) s = .next (if s.flag .N = true then { s with pc := s.pc + d.signExtend 16 } else s) ∧
    exec (.bcc d) s = .next (if s.flag .C = false then { s with pc := s.pc + d.signExtend 16 } else s) ∧
    exec (.bcs d) s = .next (if s.flag .C = true then { s with pc := s.pc + d.signExtend 16 } else s) ∧
    exec (.bne d) s = .next (if s.flag .Z = false then { s with pc := s.pc + d.signExtend 16 } else s) ∧
    exec (.beq d) s = .next (if s.flag .Z = true then { s with pc := s.pc + d.signExtend 16 } else s))

/-- R117, R118: BRA and BRL always branch; BRL keeps K. -/
def Obligations.UnconditionalBranchesAddTheirDisplacement : Prop :=
  (∀ (c : Widths) (d : Byte) (dd : Word), encode c (.bra d) = [0x80, d] ∧
    encode c (.brl dd) = [0x82, lowByte dd, highByte dd]) ∧
  OperandFetchFaults 0x80 ∧ OperandFetchFaults 0x82 ∧
  (∀ (d : Byte) (s : State), exec (.bra d) s = .next { s with pc := s.pc + d.signExtend 16 }) ∧
  (∀ (dd : Word) (s : State), exec (.brl dd) s = .next { s with pc := s.pc + dd })

/-- R145, R146: JMP loads PC alone; JML loads PC from target[15:0] and K from target[23:16]. -/
def Obligations.JumpsLoadTheirTarget : Prop :=
  (∀ (c : Widths) (lo hi bank : Byte),
    encode c (.jmpAbs (wordOfBytes lo hi)) = [0x4C, lo, hi] ∧
    encode c (.jmlLong (addrOfBytes lo hi bank)) = [0x5C, lo, hi, bank]) ∧
  OperandFetchFaults 0x4C ∧ OperandFetchFaults 0x5C ∧
  (∀ (target : Word) (s : State), exec (.jmpAbs target) s = .next { s with pc := target }) ∧
  (∀ (target : Addr) (s : State), exec (.jmlLong target) s =
    .next { s with pc := BitVec.ofNat 16 target.toNat, k := BitVec.ofNat 8 (target.toNat / 0x10000) })

/-- R168: a run of a running state ends only by a fault (or the host stopping it), and it faults exactly when one of its
steps does; a state halted at h is a fixed point of every further step. -/
def Obligations.RunsFaultOrGoOnAndHaltedStatesStay : Prop :=
  (∀ (n : Nat) (s : State), s.status = .running →
    (∃ t, Host.Core.run Sys2Proof.core n s = .next t) ∨ ∃ f, Host.Core.run Sys2Proof.core n s = .fault f) ∧
  (∀ (n : Nat) (s : State) (f : Fault), Host.Core.run Sys2Proof.core n s = .fault f ↔
    ∃ k < n, ∃ t : State, Host.Core.run Sys2Proof.core k s = .next t ∧ step t = .fault f) ∧
  (∀ (h : Addr) (s : State), HaltedAt h s →
    step s = .next s ∧ ∀ n, Host.Core.run Sys2Proof.core n s = .next s)

/-! ### Increment and decrement -/

/-- R120 to R126, INX, INY, DEX, DEY, INC A and DEC A: one byte; the register plus or minus one modulo 2^w, its hidden
byte kept, Z and N of the result, nothing else. -/
def Obligations.IncDecWriteTheWrappedValue : Prop :=
  (∀ c : Widths, encode c .inx = [0xE8] ∧ encode c .iny = [0xC8] ∧ encode c .dex = [0xCA] ∧ encode c .dey = [0x88] ∧
    encode c .incA = [0x1A] ∧ encode c .decA = [0x3A]) ∧
  ∀ (s : State) (wa wxy : Width), wa = (if s.flag .m then .w8 else .w16) → wxy = (if s.flag .x then .w8 else .w16) →
    (∃ t, exec .inx s = .next t ∧ WritesRegister s t wxy s.x t.x ((low s.x wxy + 1) % wxy.modulus) ∧
      t.a = s.a ∧ t.y = s.y) ∧
    (∃ t, exec .iny s = .next t ∧ WritesRegister s t wxy s.y t.y ((low s.y wxy + 1) % wxy.modulus) ∧
      t.a = s.a ∧ t.x = s.x) ∧
    (∃ t, exec .dex s = .next t ∧
      WritesRegister s t wxy s.x t.x ((low s.x wxy + (wxy.modulus - 1)) % wxy.modulus) ∧ t.a = s.a ∧ t.y = s.y) ∧
    (∃ t, exec .dey s = .next t ∧
      WritesRegister s t wxy s.y t.y ((low s.y wxy + (wxy.modulus - 1)) % wxy.modulus) ∧ t.a = s.a ∧ t.x = s.x) ∧
    (∃ t, exec .incA s = .next t ∧ WritesRegister s t wa s.a t.a ((low s.a wa + 1) % wa.modulus) ∧
      t.x = s.x ∧ t.y = s.y) ∧
    (∃ t, exec .decA s = .next t ∧
      WritesRegister s t wa s.a t.a ((low s.a wa + (wa.modulus - 1)) % wa.modulus) ∧ t.x = s.x ∧ t.y = s.y)

/-- R127, law 1: an increment and then the decrement of the same register restores it, whatever the width. -/
def Obligations.IncThenDecRestoresTheRegister : Prop :=
  ∀ s : State,
    (∃ t u, exec .inx s = .next t ∧ exec .dex t = .next u ∧ u.x = s.x) ∧
    (∃ t u, exec .iny s = .next t ∧ exec .dey t = .next u ∧ u.y = s.y) ∧
    (∃ t u, exec .incA s = .next t ∧ exec .decA t = .next u ∧ u.a = s.a)

/-! ### Flag control -/

/-- R130 to R136: each flag instruction is one byte and sets or clears one bit of PS, at its place in R27. -/
def Obligations.FlagInstructionsWriteOneBit : Prop :=
  (∀ c : Widths, encode c .clc = [0x18] ∧ encode c .sec = [0x38] ∧ encode c .cld = [0xD8] ∧
    encode c .sed = [0xF8] ∧ encode c .cli = [0x58] ∧ encode c .sei = [0x78] ∧ encode c .clv = [0xB8]) ∧
  (∀ s : State,
    exec .clc s = .next { s with ps := s.ps &&& 0xFE } ∧
    exec .sec s = .next { s with ps := s.ps ||| 0x01 } ∧
    exec .cld s = .next { s with ps := s.ps &&& 0xF7 } ∧
    exec .sed s = .next { s with ps := s.ps ||| 0x08 } ∧
    exec .cli s = .next { s with ps := s.ps &&& 0xFB } ∧
    exec .sei s = .next { s with ps := s.ps ||| 0x04 } ∧
    exec .clv s = .next { s with ps := s.ps &&& 0xBF })

/-- R137: REP clears the masked bits; in emulation mode x and m end at 1 whatever the mask. Nothing else changes. -/
def Obligations.RepClearsTheMaskedBits : Prop :=
  (∀ (c : Widths) (mask : Byte), encode c (.rep mask) = [0xC2, mask]) ∧
  OperandFetchFaults 0xC2 ∧
  (∀ (mask : Byte) (s : State), exec (.rep mask) s =
    .next { s with ps := if s.e then (s.ps &&& (0xFF - mask)) ||| 0x30 else s.ps &&& (0xFF - mask) })

/-- R138: SEP sets the masked bits and, if x is 1 after the write, truncates X and Y to their low byte. -/
def Obligations.SepSetsTheMaskedBitsAndTruncates : Prop :=
  (∀ (c : Widths) (mask : Byte), encode c (.sep mask) = [0xE2, mask]) ∧
  OperandFetchFaults 0xE2 ∧
  (∀ (mask : Byte) (s : State), exec (.sep mask) s =
    .next (if (s.ps ||| mask) &&& 0x10 = 0 then { s with ps := s.ps ||| mask }
      else { s with ps := s.ps ||| mask, x := wordOfBytes (lowByte s.x) 0, y := wordOfBytes (lowByte s.y) 0 }))

/-- R139, laws 1 to 4. -/
def Obligations.ModeSwitchLaws : Prop :=
  (∀ (mask : Byte) (s t : State), s.e = true → exec (.rep mask) s = .next t →
    t.flag .x = true ∧ t.flag .m = true) ∧
  (∀ (mask : Byte) (s t : State), exec (.sep mask) s = .next t → t.flag .x = true →
    t.x.toNat = s.x.toNat % 0x100 ∧ t.y.toNat = s.y.toNat % 0x100) ∧
  (∀ (c : Widths) (mask : Byte) (s : State), (encode c (.rep mask)).length = 2 ∧ (encode c (.sep mask)).length = 2 ∧
    (∃ t, exec (.rep mask) s = .next t ∧ SameRegisters s t ∧ SamePlace s t ∧ SameSystem s t ∧ SameMemory s t) ∧
    (∃ t, exec (.sep mask) s = .next t ∧ t.a = s.a ∧ SamePlace s t ∧ SameSystem s t ∧ SameMemory s t)) ∧
  (∀ (mask : Byte) (s : State), s.e = false →
    ∃ t u, exec (.sep mask) s = .next t ∧ exec (.rep mask) t = .next u ∧ u.ps = s.ps &&& ~~~mask)

/-- R176: REP and SEP are two bytes long, and the imm_m or imm_x instruction after one fetches an immediate of the
width that REP or SEP left. -/
def Obligations.WidthChangeIsSeenByTheNextInstruction : Prop :=
  ∀ (s : State) (switch mask op lo hi : Byte), s.status = .running →
    switch ∈ ([0xC2, 0xE2] : List Byte) → CodeBytes s [switch, mask, op, lo, hi] →
    ∃ t, step s = .next t ∧ t.pc = s.pc + 2 ∧
      (op ∈ ([0x69, 0xE9, 0xC9] : List Byte) →
        ∃ u, step t = .next u ∧ u.pc = t.pc + (if t.flag .m then 2 else 3)) ∧
      (op ∈ ([0xE0, 0xC0] : List Byte) →
        ∃ u, step t = .next u ∧ u.pc = t.pc + (if t.flag .x then 2 else 3))

/-! ### Memory -/

/-- R63: the ordered rule table of R52 is the per-bank map. -/
def Obligations.AddressDecoderIsTheBankMap : Prop :=
  ∀ addr : Addr, decodeAddress addr = bankMap (addr.toNat / 0x10000) (addr.toNat % 0x10000)

/-- R50, R51, R56: what a bus read and a bus write do in each region of the per-bank map. -/
def Obligations.BusAccessFollowsItsRegion : Prop :=
  ∀ (b : Bus) (addr : Addr) (v : Byte),
    (∀ i, bankMap (addr.toNat / 0x10000) (addr.toNat % 0x10000) = .ram i →
      b.read addr = .ok (b.ram.read i) ∧ b.write addr v = .ok { b with ram := b.ram.write i v }) ∧
    (∀ i, bankMap (addr.toNat / 0x10000) (addr.toNat % 0x10000) = .rom i →
      b.read addr = .ok (b.rom.read i) ∧ b.write addr v = .ok b) ∧
    (∀ r, bankMap (addr.toNat / 0x10000) (addr.toNat % 0x10000) = .reserved r →
      b.read addr = .error (.reserved addr .read r) ∧ b.write addr v = .error (.reserved addr .write r)) ∧
    (bankMap (addr.toNat / 0x10000) (addr.toNat % 0x10000) = .openBus →
      b.read addr = .error (.unmapped addr .read) ∧ b.write addr v = .error (.unmapped addr .write))

/-- R54: banks 0x7E and 0x7F are the two halves of RAM, the low mirrors are the same cells as bank 0x7E, and a write
through one window is seen through every window of its cell and through no other address. -/
def Obligations.RamWindowsAliasTheirCells : Prop :=
  (∀ offset < 0x10000, decodeRegion 0x7E offset = .ram offset ∧ decodeRegion 0x7F offset = .ram (0x10000 + offset)) ∧
  (∀ bank offset, bank ≤ 0x3F ∨ (0x80 ≤ bank ∧ bank ≤ 0xBF) → offset ≤ 0x1FFF →
    decodeRegion bank offset = .ram offset) ∧
  (∀ (s t : State) (addr other : Addr) (v : Byte) (i : Nat), s.bus.wf = true → decodeAddress addr = .ram i →
    memWrite s addr v = .ok t →
    (decodeAddress other = .ram i → memRead t other = .ok v) ∧
    (decodeAddress other ≠ .ram i → memRead t other = memRead s other))

/-- R57: read16 is two byte reads, little-endian, low byte first, the second address modulo 2^24. -/
def Obligations.Read16IsTwoReadsLowByteFirst : Prop :=
  (∀ (b : Bus) (addr : Addr),
    (∀ lo hi, b.read addr = .ok lo → b.read (addr + 1) = .ok hi →
      ∃ v, b.read16 addr = .ok v ∧ v.toNat = lo.toNat + 0x100 * hi.toNat) ∧
    (∀ err, b.read addr = .error err → b.read16 addr = .error err) ∧
    (∀ lo err, b.read addr = .ok lo → b.read (addr + 1) = .error err → b.read16 addr = .error err)) ∧
  (0xFFFFFF : Addr) + 1 = 0x000000

/-- Every step, and every bus write, keeps RAM and ROM in their canonical form, which is the model's own convention
(log 1). -/
def Obligations.CanonicalMemoryIsKept : Prop :=
  (∀ s t : State, s.bus.wf = true → step s = .next t → t.bus.wf = true) ∧
  (∀ (s t : State) (addr : Addr) (v : Byte), s.bus.wf = true → memWrite s addr v = .ok t →
    t.bus.wf = true ∧ t.bus.rom = s.bus.rom)

/-- The canonical form names each array of bytes once (log 1): two canonical memories that read the same are equal. -/
def Obligations.CanonicalMemoriesThatReadTheSameAreEqual : Prop :=
  ∀ (size : Nat) (m n : Memory), m.wf size = true → n.wf size = true → (∀ i, m.read i = n.read i) → m = n

/-! ### Construction, loading and invariants -/

/-- R46, R170, R171, R172: what construction leaves in every field, for any image and any initial RAM; the vector read
is of ROM 0x7FFC and 0x7FFD and cannot fault. -/
def Obligations.ConstructionSetsEveryField : Prop :=
  ∀ romImage ramInit : Memory, ∃ s : State, State.construct romImage ramInit = s ∧
    s.a = 0x0000 ∧ s.x = 0x0000 ∧ s.y = 0x0000 ∧ s.sp = 0x01FF ∧ s.d = 0x0000 ∧ s.k = 0x00 ∧ s.dbr = 0x00 ∧
    s.ps = 0x04 ∧ s.e = true ∧ s.bus.ram = ramInit ∧ s.bus.rom = romImage ∧ s.status = .running ∧
    s.flag .m = false ∧ s.flag .x = false ∧ s.wA = .w16 ∧ s.wXY = .w16 ∧ s.flag .I = true ∧ s.flag .D = false ∧
    decodeAddress 0x00FFFC = .rom 0x7FFC ∧ decodeAddress 0x00FFFD = .rom 0x7FFD ∧ s.bus.read16 0x00FFFC = .ok s.pc ∧
    s.pc.toNat = (romImage.read 0x7FFC).toNat + 0x100 * (romImage.read 0x7FFD).toNat

/-- The loader of 60_exceptions.md R154: it fails with RomValidationError unless the length is 524288 and the hash is
the reference digest, and then constructs nothing; an accepted image holds the loaded bytes. No step raises that fault.
It holds for every hash function and digest, the model's own uninterpreted ones among them (log 7, DESIGN CHOICE). That
the image is in canonical form is the model's own convention (log 1, DESIGN CHOICE). -/
def Obligations.LoaderValidatesBeforeConstruction : Prop :=
  (∀ (hash : List Byte → Nat) (digest : Nat) (bytes : List Byte) (ramInit : Memory),
    ¬(bytes.length = 524288 ∧ hash bytes = digest) →
    loadWith hash digest bytes ramInit = .error .romValidationError) ∧
  (∀ (hash : List Byte → Nat) (digest : Nat) (bytes : List Byte) (ramInit : Memory),
    bytes.length = 524288 → hash bytes = digest →
    ∃ image, loadWith hash digest bytes ramInit = .ok (State.construct image ramInit) ∧ image.wf 524288 = true ∧
      ∀ i (h : i < bytes.length), image.read i = bytes[i]) ∧
  (∀ (bytes : List Byte) (ramInit : Memory), bytes.length ≠ 524288 →
    loadCartridge bytes ramInit = .error .romValidationError) ∧
  (∀ s : State, step s ≠ .fault .romValidationError)

/-- R45: every step keeps the invariant, so every state reachable from construction has it. -/
def Obligations.ReachInvariantIsKeptByEveryStep : Prop :=
  (∀ (romImage ramInit : Memory) (s t : State), ReachInv romImage ramInit s → step s = .next t →
    ReachInv romImage ramInit t) ∧
  (∀ (romImage ramInit : Memory) (n : Nat) (t : State),
    Host.Core.run Sys2Proof.core n (State.construct romImage ramInit) = .next t → ReachInv romImage ramInit t)

/-- Construction satisfies the invariant of R45. -/
def Obligations.ReachInvariantHoldsAtConstruction : Prop :=
  ∀ romImage ramInit : Memory, ReachInv romImage ramInit (State.construct romImage ramInit)

/-- R137, "emulation-mode hardware cannot widen registers": with E = 1, every step keeps an 8-bit accumulator and 8-bit
index registers 8-bit. -/
def Obligations.EmulationModeNeverWidens : Prop :=
  ∀ s t : State, s.e = true → step s = .next t →
    t.e = true ∧ (s.flag .m = true → t.flag .m = true) ∧ (s.flag .x = true → t.flag .x = true)
end

