-- ==== Sys2Proof/Laws/Decode.lean ====
section
/-! SUPPORT. Byte assembly, the opcode table, and what the decoder answers. -/

namespace Sys2Proof

/-! ### Byte assembly, as numbers -/

theorem append_toNat {m n : Nat} (hi : BitVec m) (lo : BitVec n) :
    (hi ++ lo).toNat = lo.toNat + 2 ^ n * hi.toNat := by
  rw [BitVec.toNat_append, Nat.shiftLeft_eq, Nat.mul_comm, ← Nat.two_pow_add_eq_or_of_lt lo.isLt, Nat.add_comm]

theorem wordOfBytes_toNat (lo hi : Byte) : (wordOfBytes lo hi).toNat = lo.toNat + 0x100 * hi.toNat :=
  append_toNat hi lo

theorem addrOfBytes_toNat (lo hi bank : Byte) :
    (addrOfBytes lo hi bank).toNat = lo.toNat + 0x100 * hi.toNat + 0x10000 * bank.toNat :=
  (append_toNat bank (hi ++ lo)).trans (by rw [append_toNat]; norm_num)

theorem lowByte_toNat (w : Word) : (lowByte w).toNat = w.toNat % 0x100 := by
  simp [lowByte, BitVec.extractLsb'_toNat]

theorem highByte_toNat (w : Word) : (highByte w).toNat = w.toNat / 0x100 := by
  have := w.isLt
  simp [highByte, BitVec.extractLsb'_toNat, Nat.shiftRight_eq_div_pow]
  omega

theorem offsetWord_toNat (a : Addr) : (offsetWord a).toNat = a.toNat % 0x10000 := by
  simp [offsetWord, BitVec.extractLsb'_toNat]

theorem bankByte_toNat (a : Addr) : (bankByte a).toNat = a.toNat / 0x10000 := by
  have := a.isLt
  simp [bankByte, BitVec.extractLsb'_toNat, Nat.shiftRight_eq_div_pow]
  omega

@[simp] theorem lowByte_wordOfBytes (lo hi : Byte) : lowByte (wordOfBytes lo hi) = lo := by
  apply BitVec.eq_of_toNat_eq
  rw [lowByte_toNat, wordOfBytes_toNat]
  omega

@[simp] theorem highByte_wordOfBytes (lo hi : Byte) : highByte (wordOfBytes lo hi) = hi := by
  apply BitVec.eq_of_toNat_eq
  rw [highByte_toNat, wordOfBytes_toNat]
  omega

@[simp] theorem wordOfBytes_low_high (w : Word) : wordOfBytes (lowByte w) (highByte w) = w := by
  apply BitVec.eq_of_toNat_eq
  rw [wordOfBytes_toNat, lowByte_toNat, highByte_toNat]
  omega

@[simp] theorem addrOfBytes_split (a : Addr) :
    addrOfBytes (lowByte (offsetWord a)) (highByte (offsetWord a)) (bankByte a) = a := by
  apply BitVec.eq_of_toNat_eq
  rw [addrOfBytes_toNat, lowByte_toNat, highByte_toNat, offsetWord_toNat, bankByte_toNat]
  omega

@[simp] theorem offsetWord_addrOfBytes (lo hi bank : Byte) :
    offsetWord (addrOfBytes lo hi bank) = wordOfBytes lo hi := by
  apply BitVec.eq_of_toNat_eq
  rw [offsetWord_toNat, addrOfBytes_toNat, wordOfBytes_toNat]
  omega

@[simp] theorem bankByte_addrOfBytes (lo hi bank : Byte) : bankByte (addrOfBytes lo hi bank) = bank := by
  apply BitVec.eq_of_toNat_eq
  rw [bankByte_toNat, addrOfBytes_toNat]
  omega

/-- A word below 0x100 is its low byte with a zero high byte. -/
theorem wordOfBytes_low_zero {w : Word} (h : w.toNat < 0x100) : wordOfBytes (lowByte w) 0 = w := by
  apply BitVec.eq_of_toNat_eq
  rw [wordOfBytes_toNat, lowByte_toNat]
  simp
  omega

/-! ### The opcode table -/

/-- The decoder's table lists exactly the admitted opcodes of R71, in its order. -/
theorem opcodeRows_opcodes : opcodeRows.map Prod.fst = admittedOpcodes := rfl

/-- No two rows share an opcode byte. -/
theorem admittedOpcodes_nodup : admittedOpcodes.Nodup := by decide

/-- Every byte outside the table takes the default row (R74). -/
theorem formOf_default {opcode : Byte} (h : opcode ∉ admittedOpcodes) :
    formOf opcode = .impl (.unimplemented opcode) := by
  have hnone : opcodeRows.lookup opcode = none := by
    rw [List.lookup_eq_none_iff]
    intro p hp
    rw [bne_iff_ne]
    rintro rfl
    exact h (opcodeRows_opcodes ▸ List.mem_map_of_mem hp)
  rw [formOf, hnone]
  rfl

/-- Every row of the table is found by its opcode byte. -/
theorem formOf_of_mem {row : Byte × Form} (h : row ∈ opcodeRows) : formOf row.1 = row.2 := by
  simp only [opcodeRows, List.mem_append, List.mem_cons, List.not_mem_nil, or_false] at h
  rcases h with ((((h | h | h | h | h) | (h | h | h | h | h | h | h | h)) | (h | h | h | h | h | h)) |
      (h | h | h | h | h | h | h | h | h)) | (h | h) <;>
    subst h <;> rfl

/-- Every admitted opcode has a row. -/
theorem row_of_admitted {opcode : Byte} (h : opcode ∈ admittedOpcodes) : ∃ form, (opcode, form) ∈ opcodeRows := by
  rw [← opcodeRows_opcodes, List.mem_map] at h
  obtain ⟨row, hrow, rfl⟩ := h
  exact ⟨row.2, hrow⟩

/-! ### The decoder -/

/-- The decoder reads an opcode byte followed by exactly its operand bytes. -/
theorem decode_exact {c : Widths} {opcode : Byte} {operands : List Byte}
    (h : operands.length = operandCount c opcode) :
    decode c (opcode :: operands) = .ok (instrOf c opcode operands, []) := by
  simp [decode, h]

/-- What a successful decode says: an opcode byte, enough bytes after it, and the instruction they make. -/
theorem decode_ok {c : Widths} {bytes rest : List Byte} {i : Instr} (h : decode c bytes = .ok (i, rest)) :
    ∃ opcode tail, bytes = opcode :: tail ∧ operandCount c opcode ≤ tail.length ∧
      i = instrOf c opcode tail ∧ rest = tail.drop (operandCount c opcode) := by
  cases bytes with
  | nil => simp [decode] at h
  | cons opcode tail =>
    rw [decode] at h
    split at h
    · cases h
    · simp only [Except.ok.injEq, Prod.mk.injEq] at h
      exact ⟨opcode, tail, rfl, by omega, h.1.symm, h.2.symm⟩

end Sys2Proof
end

