-- ==== Sys2Proof/Laws/Flags.lean ====
section
/-! SUPPORT. Flags of PS, and register halves at 8-bit width. -/

namespace Sys2Proof.Machine

/-! ### Flags -/

/-- Writing one flag and reading any: the written one has the new value, the other seven their old (R36). -/
@[simp] theorem getFlag_putFlag (ps : Byte) (f g : Flag) (b : Bool) :
    getFlag (putFlag ps f b) g = if g = f then b else getFlag ps g := by
  cases b <;> cases f <;> cases g <;>
    simp [getFlag, putFlag, Flag.mask, Flag.bit]

/-- PS is its eight flags. -/
theorem ps_eq_of_flags {p q : Byte} (h : ∀ f, getFlag p f = getFlag q f) : p = q := by
  apply BitVec.eq_of_getLsbD_eq
  intro i hi
  have hb : ∃ f : Flag, f.bit = i := by
    have hcases : i = 0 ∨ i = 1 ∨ i = 2 ∨ i = 3 ∨ i = 4 ∨ i = 5 ∨ i = 6 ∨ i = 7 := by omega
    obtain h | h | h | h | h | h | h | h := hcases
    · exact ⟨.C, h.symm⟩
    · exact ⟨.Z, h.symm⟩
    · exact ⟨.I, h.symm⟩
    · exact ⟨.D, h.symm⟩
    · exact ⟨.x, h.symm⟩
    · exact ⟨.m, h.symm⟩
    · exact ⟨.V, h.symm⟩
    · exact ⟨.N, h.symm⟩
  obtain ⟨f, rfl⟩ := hb
  exact h f

/-- setZN writes Z and N of the result and no other flag (R16). -/
@[simp] theorem getFlag_putZN (ps : Byte) (w : Width) (v : Nat) (g : Flag) :
    getFlag (putZN ps w v) g =
      if g = .N then signBit w v else if g = .Z then decide (v = 0) else getFlag ps g := by
  simp [putZN]

@[simp] theorem getFlag_and (p q : Byte) (f : Flag) : getFlag (p &&& q) f = (getFlag p f && getFlag q f) := by
  simp [getFlag]

@[simp] theorem getFlag_or (p q : Byte) (f : Flag) : getFlag (p ||| q) f = (getFlag p f || getFlag q f) := by
  simp [getFlag]

@[simp] theorem getFlag_not (p : Byte) (f : Flag) : getFlag (~~~p) f = !getFlag p f := by
  cases f <;> simp [getFlag, Flag.bit]

/-! ### Widths and register halves -/

@[simp] theorem Width.ofFlag_eq_w8 {b : Bool} : Width.ofFlag b = .w8 ↔ b = true := by
  cases b <;> simp [Width.ofFlag]

theorem Width.modulus_pos (w : Width) : 0 < w.modulus := by cases w <;> decide

theorem low_lt (r : Word) (w : Width) : low r w < w.modulus := by
  have := r.isLt
  have := (lowByte r).isLt
  cases w <;> simp [low, Width.modulus] <;> omega

theorem low_w8 (r : Word) : low r .w8 = r.toNat % 0x100 := lowByte_toNat r

theorem low_w16 (r : Word) : low r .w16 = r.toNat := rfl

theorem wrap_lt (w : Width) (v : Int) : wrap w v < w.modulus := by
  cases w <;> simp only [wrap, Width.modulus] <;> omega

theorem merge_w8_toNat (r : Word) (v : Nat) : (merge r .w8 v).toNat = v % 0x100 + 0x100 * (r.toNat / 0x100) := by
  refine (append_toNat (highByte r) (BitVec.ofNat 8 v)).trans ?_
  rw [highByte_toNat]
  simp

/-- The low part of a merged register is the value written. -/
theorem low_merge {r : Word} {w : Width} {v : Nat} (h : v < w.modulus) : low (merge r w v) w = v := by
  cases w with
  | w8 =>
    rw [low_w8, merge_w8_toNat]
    simp only [Width.modulus] at h
    omega
  | w16 =>
    simp only [Width.modulus] at h
    simpa [low, merge] using h

/-- At 8-bit width the hidden byte persists (R26). -/
theorem highByte_merge_w8 (r : Word) (v : Nat) : highByte (merge r .w8 v) = highByte r := by
  apply BitVec.eq_of_toNat_eq
  rw [highByte_toNat, highByte_toNat, merge_w8_toNat]
  omega

/-- A register is its two bytes. -/
theorem word_eq_of_bytes {r q : Word} (hl : lowByte r = lowByte q) (hh : highByte r = highByte q) : r = q := by
  rw [← wordOfBytes_low_high r, ← wordOfBytes_low_high q, hl, hh]

theorem truncateIndex_toNat (r : Word) : (truncateIndex r).toNat = r.toNat % 0x100 := by
  rw [truncateIndex, BitVec.toNat_and]
  exact Nat.and_two_pow_sub_one_eq_mod r.toNat 8

/-- The sign bit of a width-w number says that it is in the upper half. -/
theorem signBit_eq {w : Width} {v : Nat} (h : v < w.modulus) : signBit w v = decide (w.modulus / 2 ≤ v) := by
  rw [Bool.eq_iff_iff, decide_eq_true_eq, signBit, Nat.testBit_eq_decide_div_mod_eq, decide_eq_true_eq]
  cases w <;> simp only [Width.modulus, Width.bits, Nat.reduceSub, Nat.reducePow] at h ⊢ <;> omega

end Sys2Proof.Machine
end

