-- ==== Sys2Proof/Laws/Alu.lean ====
section
/-! SUPPORT. The adders: every result fits its width, and the carry of each is one comparison. -/

namespace Sys2Proof.Machine

/-- ADC's adder answers a width-w number, in both modes and on every operand. -/
theorem addWithCarry_lt (decimal : Bool) (a imm : Nat) (cin : Bool) (w : Width) :
    (addWithCarry decimal a imm cin w).r < w.modulus := by
  cases decimal <;> cases w <;> exact Nat.mod_lt _ (by decide)

/-- SBC's adder answers a width-w number, in both modes and on every operand. -/
theorem subtractWithBorrow_lt (decimal : Bool) (a imm : Nat) (cin : Bool) (w : Width) :
    (subtractWithBorrow decimal a imm cin w).r < w.modulus := by
  cases decimal
  · cases w <;> exact Nat.mod_lt _ (by decide)
  · cases w <;> simp only [subtractWithBorrow, subBcd8, subBcd16, Width.modulus, if_true] <;> omega

/-- AddBin on width-w operands, without masks (R92). -/
theorem addBin_eq (a b : Nat) (cin : Bool) (w : Width) :
    addBin a b cin w =
      { r := (a + b + cin.toNat) % w.modulus, c := decide (w.modulus ≤ a + b + cin.toNat),
        v := overflowBit w a b ((a + b + cin.toNat) % w.modulus) } := by
  have hpos := w.modulus_pos
  have hcarry : a + b + cin.toNat > w.mask ↔ w.modulus ≤ a + b + cin.toNat := by
    rw [Width.mask]
    omega
  rw [addBin, decide_eq_decide.2 hcarry]

/-! ### Nibbles: a masked digit is a quotient and a remainder -/

/-- Masking the four bits from `k` on. -/
theorem and_nibble (v k : Nat) : v &&& (15 * 2 ^ k) = v / 2 ^ k % 16 * 2 ^ k := by
  have hmask : 15 * 2 ^ k = (2 ^ 4 - 1) <<< k := by rw [Nat.shiftLeft_eq]; norm_num
  have hdigit : v / 2 ^ k % 16 * 2 ^ k = (v >>> k % 2 ^ 4) <<< k := by
    rw [Nat.shiftLeft_eq, Nat.shiftRight_eq_div_pow]; norm_num
  apply Nat.eq_of_testBit_eq
  intro i
  rw [hmask, hdigit, Nat.testBit_and, Nat.testBit_shiftLeft, Nat.testBit_shiftLeft, Nat.testBit_mod_two_pow,
    Nat.testBit_shiftRight, Nat.testBit_two_pow_sub_one]
  by_cases h : k ≤ i
  · simp [h]
    exact Bool.and_comm _ _
  · simp [h]

theorem and_digit0 (v : Nat) : v &&& 0x000F = v % 16 := by simpa using and_nibble v 0

theorem and_digit1 (v : Nat) : v &&& 0x00F0 = v / 16 % 16 * 16 := and_nibble v 4

theorem and_digit2 (v : Nat) : v &&& 0x0F00 = v / 256 % 16 * 256 := and_nibble v 8

theorem and_digit3 (v : Nat) : v &&& 0xF000 = v / 4096 % 16 * 4096 := and_nibble v 12

end Sys2Proof.Machine
end

