-- ==== Sys2Proof/Laws/Memory.lean ====
section
/-! SUPPORT. Storage arrays: read after write, and that writing keeps the canonical form. -/

namespace Sys2Proof.Machine

@[simp] theorem Memory.read_nil (i : Nat) : Memory.read [] i = unlistedByte := rfl

@[simp] theorem Memory.wf_nil (size : Nat) : Memory.wf size [] = true := rfl

/-- One cell of the canonical form, as propositions. -/
theorem Memory.wfFrom_cons {size low j : Nat} {b : Byte} {rest : Memory} :
    Memory.wfFrom size low ((j, b) :: rest) = true ↔
      (low ≤ j ∧ j < size ∧ b ≠ unlistedByte) ∧ Memory.wfFrom size (j + 1) rest = true := by
  simp [Memory.wfFrom, and_assoc]

/-- A canonical list may be read as one that starts lower. -/
theorem Memory.wfFrom_mono {size low low' : Nat} {m : Memory} (hlow : low' ≤ low)
    (h : Memory.wfFrom size low m = true) : Memory.wfFrom size low' m = true := by
  cases m with
  | nil => rfl
  | cons cell rest =>
    rw [Memory.wfFrom_cons] at h ⊢
    exact ⟨⟨by omega, h.1.2⟩, h.2⟩

/-- Below its start a canonical list lists nothing. -/
theorem Memory.read_below {size low i : Nat} {m : Memory} (h : Memory.wfFrom size low m = true) (hi : i < low) :
    Memory.read m i = unlistedByte := by
  induction m generalizing low with
  | nil => rfl
  | cons cell rest ih =>
    rw [Memory.wfFrom_cons] at h
    have hne : i ≠ cell.1 := by omega
    simpa [Memory.read, hne] using ih h.2 (by omega)

/-- Writing keeps the canonical form. -/
theorem Memory.write_wfFrom {size low i : Nat} {m : Memory} {v : Byte} (h : Memory.wfFrom size low m = true)
    (hlow : low ≤ i) (hsize : i < size) : Memory.wfFrom size low (m.write i v) = true := by
  induction m generalizing low with
  | nil =>
    rw [Memory.write]
    split
    · rfl
    · rw [Memory.wfFrom_cons]
      exact ⟨⟨hlow, hsize, ‹_›⟩, rfl⟩
  | cons cell rest ih =>
    have hcell := h
    rw [Memory.wfFrom_cons] at h
    rw [Memory.write]
    split
    · split
      · exact hcell
      · rw [Memory.wfFrom_cons, Memory.wfFrom_cons]
        exact ⟨⟨hlow, hsize, ‹_›⟩, ⟨by omega, h.1.2⟩, h.2⟩
    · split
      · rename_i hlt heq
        subst heq
        split
        · exact Memory.wfFrom_mono (by omega) h.2
        · rw [Memory.wfFrom_cons]
          exact ⟨⟨h.1.1, hsize, ‹_›⟩, h.2⟩
      · rw [Memory.wfFrom_cons]
        exact ⟨h.1, ih h.2 (by omega)⟩

theorem Memory.write_wf {size i : Nat} {m : Memory} {v : Byte} (h : m.wf size = true) (hsize : i < size) :
    (m.write i v).wf size = true :=
  Memory.write_wfFrom h (Nat.zero_le i) hsize

/-- What a canonical array reads as after a write: the new byte at its index, every other byte as before. -/
theorem Memory.read_write_from {size low i : Nat} {m : Memory} (v : Byte) (j : Nat)
    (h : Memory.wfFrom size low m = true) :
    (m.write i v).read j = if j = i then v else m.read j := by
  induction m generalizing low with
  | nil =>
    rw [Memory.write]
    split <;> rename_i hv <;> by_cases hj : j = i <;> simp [Memory.read, hj, hv]
  | cons cell rest ih =>
    have hcell := h
    rw [Memory.wfFrom_cons] at h
    rw [Memory.write]
    split
    · rename_i hlt
      split
      · rename_i hv
        by_cases hj : j = i
        · subst hj
          rw [if_pos rfl, hv]
          exact Memory.read_below (low := cell.1) (by
            rw [Memory.wfFrom_cons]
            exact ⟨⟨Nat.le_refl _, h.1.2⟩, h.2⟩) hlt
        · rw [if_neg hj]
      · by_cases hj : j = i <;> simp [Memory.read, hj]
    · split
      · rename_i hlt heq
        subst heq
        split
        · rename_i hv
          by_cases hj : j = cell.1
          · subst hj
            rw [if_pos rfl, hv]
            exact Memory.read_below h.2 (Nat.lt_succ_self _)
          · simp [Memory.read, hj]
        · by_cases hj : j = cell.1 <;> simp [Memory.read, hj]
      · rename_i hne
        by_cases hj : j = cell.1
        · subst hj
          simp [Memory.read, Ne.symm hne]
        · simp [Memory.read, hj, ih h.2]

theorem Memory.read_write {size i : Nat} {m : Memory} (v : Byte) (j : Nat) (h : m.wf size = true) :
    (m.write i v).read j = if j = i then v else m.read j :=
  Memory.read_write_from v j h

/-- The array made from a list of bytes is canonical. -/
theorem Memory.ofBytesFrom_wfFrom (size : Nat) (bytes : List Byte) (i : Nat) (h : i + bytes.length ≤ size) :
    Memory.wfFrom size i (Memory.ofBytesFrom i bytes) = true := by
  induction bytes generalizing i with
  | nil => rfl
  | cons b rest ih =>
    rw [List.length_cons] at h
    have htail := ih (i + 1) (by omega)
    rw [Memory.ofBytesFrom]
    split
    · exact Memory.wfFrom_mono (Nat.le_succ i) htail
    · rw [Memory.wfFrom_cons]
      exact ⟨⟨Nat.le_refl i, by omega, ‹_›⟩, htail⟩

end Sys2Proof.Machine
end

