-- ==== Sys2Proof/Laws/Bus.lean ====
section
/-! SUPPORT. The address decoder and the bus: index bounds, what a write does, that every bus operation keeps the
canonical form, and that the reset-vector read cannot fault. -/

namespace Sys2Proof.Machine

theorem offsetOf_lt (addr : Addr) : offsetOf addr < 0x10000 := Nat.mod_lt _ (by decide)

theorem ramIndex_lt (bank offset : Nat) (h : offset < 0x10000) : ramIndex bank offset < Config.ramSize := by
  have hbit : bank &&& 1 < 2 ^ 1 := Nat.and_lt_two_pow _ (by decide)
  have hhigh : (bank &&& 1) <<< 16 < 2 ^ 17 := by rw [Nat.shiftLeft_eq]; omega
  exact Nat.or_lt_two_pow (n := 17) (by omega) hhigh

theorem romIndex_lt (bank offset : Nat) : romIndex bank offset < Config.romSize := by
  have hlow : offset &&& 0x7FFF < 2 ^ 15 := Nat.and_lt_two_pow _ (by decide)
  have hpage : bank &&& 0xF < 2 ^ 4 := Nat.and_lt_two_pow _ (by decide)
  have hhigh : (bank &&& 0xF) <<< 15 < 2 ^ 19 := by rw [Nat.shiftLeft_eq]; omega
  exact Nat.or_lt_two_pow (n := 19) (by omega) hhigh

/-- A RAM index is inside the RAM (R54), a ROM index inside the image (R55). -/
theorem decodeAddress_inBounds (addr : Addr) :
    (∀ i, decodeAddress addr = .ram i → i < Config.ramSize) ∧
      (∀ i, decodeAddress addr = .rom i → i < Config.romSize) := by
  have hoff := offsetOf_lt addr
  have hram := ramIndex_lt (bankOf addr) _ hoff
  have hrom := romIndex_lt (bankOf addr) (offsetOf addr)
  have hsize : 0x10000 ≤ Config.ramSize := by decide
  unfold decodeAddress decodeRegion
  constructor <;> intro i h <;> split_ifs at h <;> injection h <;> omega

/-- A successful bus write either changes one RAM cell or, in ROM, nothing (R51, R56). -/
theorem Bus.write_ok {b b' : Bus} {addr : Addr} {v : Byte} (h : b.write addr v = .ok b') :
    (∃ i, decodeAddress addr = .ram i ∧ b' = { b with ram := b.ram.write i v }) ∨
      ((∃ i, decodeAddress addr = .rom i) ∧ b' = b) := by
  unfold Bus.write at h
  split at h <;> cases h
  · exact .inl ⟨_, ‹_›, rfl⟩
  · exact .inr ⟨⟨_, ‹_›⟩, rfl⟩

theorem Bus.wf_iff {b : Bus} : b.wf = true ↔ b.ram.wf Config.ramSize = true ∧ b.rom.wf Config.romSize = true := by
  simp [Bus.wf]

/-- A bus write keeps the canonical form. -/
theorem Bus.write_wf {b b' : Bus} {addr : Addr} {v : Byte} (hwf : b.wf = true) (h : b.write addr v = .ok b') :
    b'.wf = true := by
  rw [Bus.wf_iff] at hwf
  obtain ⟨i, hi, rfl⟩ | ⟨-, rfl⟩ := Bus.write_ok h
  · exact Bus.wf_iff.2 ⟨Memory.write_wf hwf.1 ((decodeAddress_inBounds addr).1 i hi), hwf.2⟩
  · exact Bus.wf_iff.2 hwf

/-- Loading a byte from outside keeps the canonical form. -/
theorem Bus.place_wf {b : Bus} (addr : Addr) (v : Byte) (hwf : b.wf = true) : (b.place addr v).wf = true := by
  have hb := decodeAddress_inBounds addr
  rw [Bus.wf_iff] at hwf
  unfold Bus.place
  split
  · exact Bus.wf_iff.2 ⟨Memory.write_wf hwf.1 (hb.1 _ ‹_›), hwf.2⟩
  · exact Bus.wf_iff.2 ⟨hwf.1, Memory.write_wf hwf.2 (hb.2 _ ‹_›)⟩
  · exact Bus.wf_iff.2 hwf
  · exact Bus.wf_iff.2 hwf

theorem decodeAddress_resetVector :
    decodeAddress Config.resetVectorAddress = .rom 0x7FFC ∧
      decodeAddress (Config.resetVectorAddress + 1) = .rom 0x7FFD := by decide

/-- The reset-vector read answers the ROM word at 0x7FFC and cannot fault (R62). -/
theorem Bus.read16_resetVector (b : Bus) :
    b.read16 Config.resetVectorAddress = .ok (wordOfBytes (b.rom.read 0x7FFC) (b.rom.read 0x7FFD)) := by
  simp only [Bus.read16, Bus.read, decodeAddress_resetVector.1, decodeAddress_resetVector.2]

theorem Bus.resetVector_eq (b : Bus) : b.resetVector = wordOfBytes (b.rom.read 0x7FFC) (b.rom.read 0x7FFD) := by
  rw [Bus.resetVector, Bus.read16_resetVector]

end Sys2Proof.Machine
end

