-- ==== Sys2Proof/Laws/State.lean ====
section
/-! SUPPORT. One lemma per field and update of State, so that no proof unfolds a record update; and what construction
leaves in each field. -/

namespace Sys2Proof.Machine

@[simp] theorem State.withA_a (s : State) (v : Word) : (s.withA v).a = v := rfl
@[simp] theorem State.withA_x (s : State) (v : Word) : (s.withA v).x = s.x := rfl
@[simp] theorem State.withA_y (s : State) (v : Word) : (s.withA v).y = s.y := rfl
@[simp] theorem State.withA_sp (s : State) (v : Word) : (s.withA v).sp = s.sp := rfl
@[simp] theorem State.withA_d (s : State) (v : Word) : (s.withA v).d = s.d := rfl
@[simp] theorem State.withA_pc (s : State) (v : Word) : (s.withA v).pc = s.pc := rfl
@[simp] theorem State.withA_k (s : State) (v : Word) : (s.withA v).k = s.k := rfl
@[simp] theorem State.withA_dbr (s : State) (v : Word) : (s.withA v).dbr = s.dbr := rfl
@[simp] theorem State.withA_ps (s : State) (v : Word) : (s.withA v).ps = s.ps := rfl
@[simp] theorem State.withA_e (s : State) (v : Word) : (s.withA v).e = s.e := rfl
@[simp] theorem State.withA_bus (s : State) (v : Word) : (s.withA v).bus = s.bus := rfl
@[simp] theorem State.withA_status (s : State) (v : Word) : (s.withA v).status = s.status := rfl

@[simp] theorem State.withX_a (s : State) (v : Word) : (s.withX v).a = s.a := rfl
@[simp] theorem State.withX_x (s : State) (v : Word) : (s.withX v).x = v := rfl
@[simp] theorem State.withX_y (s : State) (v : Word) : (s.withX v).y = s.y := rfl
@[simp] theorem State.withX_sp (s : State) (v : Word) : (s.withX v).sp = s.sp := rfl
@[simp] theorem State.withX_d (s : State) (v : Word) : (s.withX v).d = s.d := rfl
@[simp] theorem State.withX_pc (s : State) (v : Word) : (s.withX v).pc = s.pc := rfl
@[simp] theorem State.withX_k (s : State) (v : Word) : (s.withX v).k = s.k := rfl
@[simp] theorem State.withX_dbr (s : State) (v : Word) : (s.withX v).dbr = s.dbr := rfl
@[simp] theorem State.withX_ps (s : State) (v : Word) : (s.withX v).ps = s.ps := rfl
@[simp] theorem State.withX_e (s : State) (v : Word) : (s.withX v).e = s.e := rfl
@[simp] theorem State.withX_bus (s : State) (v : Word) : (s.withX v).bus = s.bus := rfl
@[simp] theorem State.withX_status (s : State) (v : Word) : (s.withX v).status = s.status := rfl

@[simp] theorem State.withY_a (s : State) (v : Word) : (s.withY v).a = s.a := rfl
@[simp] theorem State.withY_x (s : State) (v : Word) : (s.withY v).x = s.x := rfl
@[simp] theorem State.withY_y (s : State) (v : Word) : (s.withY v).y = v := rfl
@[simp] theorem State.withY_sp (s : State) (v : Word) : (s.withY v).sp = s.sp := rfl
@[simp] theorem State.withY_d (s : State) (v : Word) : (s.withY v).d = s.d := rfl
@[simp] theorem State.withY_pc (s : State) (v : Word) : (s.withY v).pc = s.pc := rfl
@[simp] theorem State.withY_k (s : State) (v : Word) : (s.withY v).k = s.k := rfl
@[simp] theorem State.withY_dbr (s : State) (v : Word) : (s.withY v).dbr = s.dbr := rfl
@[simp] theorem State.withY_ps (s : State) (v : Word) : (s.withY v).ps = s.ps := rfl
@[simp] theorem State.withY_e (s : State) (v : Word) : (s.withY v).e = s.e := rfl
@[simp] theorem State.withY_bus (s : State) (v : Word) : (s.withY v).bus = s.bus := rfl
@[simp] theorem State.withY_status (s : State) (v : Word) : (s.withY v).status = s.status := rfl

@[simp] theorem State.withPc_a (s : State) (v : Word) : (s.withPc v).a = s.a := rfl
@[simp] theorem State.withPc_x (s : State) (v : Word) : (s.withPc v).x = s.x := rfl
@[simp] theorem State.withPc_y (s : State) (v : Word) : (s.withPc v).y = s.y := rfl
@[simp] theorem State.withPc_sp (s : State) (v : Word) : (s.withPc v).sp = s.sp := rfl
@[simp] theorem State.withPc_d (s : State) (v : Word) : (s.withPc v).d = s.d := rfl
@[simp] theorem State.withPc_pc (s : State) (v : Word) : (s.withPc v).pc = v := rfl
@[simp] theorem State.withPc_k (s : State) (v : Word) : (s.withPc v).k = s.k := rfl
@[simp] theorem State.withPc_dbr (s : State) (v : Word) : (s.withPc v).dbr = s.dbr := rfl
@[simp] theorem State.withPc_ps (s : State) (v : Word) : (s.withPc v).ps = s.ps := rfl
@[simp] theorem State.withPc_e (s : State) (v : Word) : (s.withPc v).e = s.e := rfl
@[simp] theorem State.withPc_bus (s : State) (v : Word) : (s.withPc v).bus = s.bus := rfl
@[simp] theorem State.withPc_status (s : State) (v : Word) : (s.withPc v).status = s.status := rfl

@[simp] theorem State.withK_a (s : State) (v : Byte) : (s.withK v).a = s.a := rfl
@[simp] theorem State.withK_x (s : State) (v : Byte) : (s.withK v).x = s.x := rfl
@[simp] theorem State.withK_y (s : State) (v : Byte) : (s.withK v).y = s.y := rfl
@[simp] theorem State.withK_sp (s : State) (v : Byte) : (s.withK v).sp = s.sp := rfl
@[simp] theorem State.withK_d (s : State) (v : Byte) : (s.withK v).d = s.d := rfl
@[simp] theorem State.withK_pc (s : State) (v : Byte) : (s.withK v).pc = s.pc := rfl
@[simp] theorem State.withK_k (s : State) (v : Byte) : (s.withK v).k = v := rfl
@[simp] theorem State.withK_dbr (s : State) (v : Byte) : (s.withK v).dbr = s.dbr := rfl
@[simp] theorem State.withK_ps (s : State) (v : Byte) : (s.withK v).ps = s.ps := rfl
@[simp] theorem State.withK_e (s : State) (v : Byte) : (s.withK v).e = s.e := rfl
@[simp] theorem State.withK_bus (s : State) (v : Byte) : (s.withK v).bus = s.bus := rfl
@[simp] theorem State.withK_status (s : State) (v : Byte) : (s.withK v).status = s.status := rfl

@[simp] theorem State.withPs_a (s : State) (v : Byte) : (s.withPs v).a = s.a := rfl
@[simp] theorem State.withPs_x (s : State) (v : Byte) : (s.withPs v).x = s.x := rfl
@[simp] theorem State.withPs_y (s : State) (v : Byte) : (s.withPs v).y = s.y := rfl
@[simp] theorem State.withPs_sp (s : State) (v : Byte) : (s.withPs v).sp = s.sp := rfl
@[simp] theorem State.withPs_d (s : State) (v : Byte) : (s.withPs v).d = s.d := rfl
@[simp] theorem State.withPs_pc (s : State) (v : Byte) : (s.withPs v).pc = s.pc := rfl
@[simp] theorem State.withPs_k (s : State) (v : Byte) : (s.withPs v).k = s.k := rfl
@[simp] theorem State.withPs_dbr (s : State) (v : Byte) : (s.withPs v).dbr = s.dbr := rfl
@[simp] theorem State.withPs_ps (s : State) (v : Byte) : (s.withPs v).ps = v := rfl
@[simp] theorem State.withPs_e (s : State) (v : Byte) : (s.withPs v).e = s.e := rfl
@[simp] theorem State.withPs_bus (s : State) (v : Byte) : (s.withPs v).bus = s.bus := rfl
@[simp] theorem State.withPs_status (s : State) (v : Byte) : (s.withPs v).status = s.status := rfl

@[simp] theorem State.withBus_a (s : State) (v : Bus) : (s.withBus v).a = s.a := rfl
@[simp] theorem State.withBus_x (s : State) (v : Bus) : (s.withBus v).x = s.x := rfl
@[simp] theorem State.withBus_y (s : State) (v : Bus) : (s.withBus v).y = s.y := rfl
@[simp] theorem State.withBus_sp (s : State) (v : Bus) : (s.withBus v).sp = s.sp := rfl
@[simp] theorem State.withBus_d (s : State) (v : Bus) : (s.withBus v).d = s.d := rfl
@[simp] theorem State.withBus_pc (s : State) (v : Bus) : (s.withBus v).pc = s.pc := rfl
@[simp] theorem State.withBus_k (s : State) (v : Bus) : (s.withBus v).k = s.k := rfl
@[simp] theorem State.withBus_dbr (s : State) (v : Bus) : (s.withBus v).dbr = s.dbr := rfl
@[simp] theorem State.withBus_ps (s : State) (v : Bus) : (s.withBus v).ps = s.ps := rfl
@[simp] theorem State.withBus_e (s : State) (v : Bus) : (s.withBus v).e = s.e := rfl
@[simp] theorem State.withBus_bus (s : State) (v : Bus) : (s.withBus v).bus = v := rfl
@[simp] theorem State.withBus_status (s : State) (v : Bus) : (s.withBus v).status = s.status := rfl

@[simp] theorem State.withStatus_a (s : State) (v : RunStatus) : (s.withStatus v).a = s.a := rfl
@[simp] theorem State.withStatus_x (s : State) (v : RunStatus) : (s.withStatus v).x = s.x := rfl
@[simp] theorem State.withStatus_y (s : State) (v : RunStatus) : (s.withStatus v).y = s.y := rfl
@[simp] theorem State.withStatus_sp (s : State) (v : RunStatus) : (s.withStatus v).sp = s.sp := rfl
@[simp] theorem State.withStatus_d (s : State) (v : RunStatus) : (s.withStatus v).d = s.d := rfl
@[simp] theorem State.withStatus_pc (s : State) (v : RunStatus) : (s.withStatus v).pc = s.pc := rfl
@[simp] theorem State.withStatus_k (s : State) (v : RunStatus) : (s.withStatus v).k = s.k := rfl
@[simp] theorem State.withStatus_dbr (s : State) (v : RunStatus) : (s.withStatus v).dbr = s.dbr := rfl
@[simp] theorem State.withStatus_ps (s : State) (v : RunStatus) : (s.withStatus v).ps = s.ps := rfl
@[simp] theorem State.withStatus_e (s : State) (v : RunStatus) : (s.withStatus v).e = s.e := rfl
@[simp] theorem State.withStatus_bus (s : State) (v : RunStatus) : (s.withStatus v).bus = s.bus := rfl
@[simp] theorem State.withStatus_status (s : State) (v : RunStatus) : (s.withStatus v).status = v := rfl

/-! ### Construction (spec/70_reset_and_hazards.md R170) -/

@[simp] theorem State.construct_a (i r : Memory) : (State.construct i r).a = 0x0000 := rfl
@[simp] theorem State.construct_x (i r : Memory) : (State.construct i r).x = 0x0000 := rfl
@[simp] theorem State.construct_y (i r : Memory) : (State.construct i r).y = 0x0000 := rfl
@[simp] theorem State.construct_sp (i r : Memory) : (State.construct i r).sp = 0x01FF := rfl
@[simp] theorem State.construct_d (i r : Memory) : (State.construct i r).d = 0x0000 := rfl
@[simp] theorem State.construct_pc (i r : Memory) : (State.construct i r).pc = ({ ram := r, rom := i } : Bus).resetVector := rfl
@[simp] theorem State.construct_k (i r : Memory) : (State.construct i r).k = 0x00 := rfl
@[simp] theorem State.construct_dbr (i r : Memory) : (State.construct i r).dbr = 0x00 := rfl
@[simp] theorem State.construct_ps (i r : Memory) : (State.construct i r).ps = 0x04 := rfl
@[simp] theorem State.construct_e (i r : Memory) : (State.construct i r).e = true := rfl
@[simp] theorem State.construct_bus (i r : Memory) : (State.construct i r).bus = { ram := r, rom := i } := rfl
@[simp] theorem State.construct_status (i r : Memory) : (State.construct i r).status = .running := rfl

/-- A state is its twelve fields. -/
@[ext] theorem State.ext_fields {s t : State} (ha : s.a = t.a) (hx : s.x = t.x) (hy : s.y = t.y) (hsp : s.sp = t.sp)
    (hd : s.d = t.d) (hpc : s.pc = t.pc) (hk : s.k = t.k) (hdbr : s.dbr = t.dbr) (hps : s.ps = t.ps) (he : s.e = t.e)
    (hbus : s.bus = t.bus) (hstatus : s.status = t.status) : s = t := by
  cases s; cases t; simp_all

end Sys2Proof.Machine
end

