-- ==== Sys2Proof/Laws/Ops.lean ====
section
/-! SUPPORT. One lemma per shared operation that says everything it can do: flag writes, memory reads, fetches. -/

namespace Sys2Proof.Machine

/-! ### Flags of a state -/

theorem State.flag_eq (s : State) (f : Flag) : s.flag f = getFlag s.ps f := rfl

@[simp] theorem State.flag_withPs (s : State) (v : Byte) (f : Flag) : (s.withPs v).flag f = getFlag v f := rfl
@[simp] theorem State.flag_withA (s : State) (v : Word) (f : Flag) : (s.withA v).flag f = s.flag f := rfl
@[simp] theorem State.flag_withX (s : State) (v : Word) (f : Flag) : (s.withX v).flag f = s.flag f := rfl
@[simp] theorem State.flag_withY (s : State) (v : Word) (f : Flag) : (s.withY v).flag f = s.flag f := rfl
@[simp] theorem State.flag_withPc (s : State) (v : Word) (f : Flag) : (s.withPc v).flag f = s.flag f := rfl
@[simp] theorem State.flag_withK (s : State) (v : Byte) (f : Flag) : (s.withK v).flag f = s.flag f := rfl

@[simp] theorem State.flag_setFlag (s : State) (f g : Flag) (b : Bool) :
    (s.setFlag f b).flag g = if g = f then b else s.flag g :=
  getFlag_putFlag s.ps f g b

/-! ### Memory -/

/-- A read looks at the bus alone. -/
theorem memRead_congr {s t : State} (h : t.bus = s.bus) (addr : Addr) : memRead t addr = memRead s addr := by
  rw [memRead, memRead, h]

@[simp] theorem memRead_withPc (s : State) (v : Word) (addr : Addr) : memRead (s.withPc v) addr = memRead s addr := rfl

/-- A successful write changes the bus alone, and keeps it canonical. -/
theorem memWrite_ok {s t : State} {addr : Addr} {v : Byte} (h : memWrite s addr v = .ok t) :
    ∃ b, s.bus.write addr v = .ok b ∧ t = s.withBus b := by
  unfold memWrite at h
  split at h <;> cases h
  exact ⟨_, ‹_›, rfl⟩

theorem memWrite_wf {s t : State} {addr : Addr} {v : Byte} (hwf : s.bus.wf = true) (h : memWrite s addr v = .ok t) :
    t.bus.wf = true := by
  obtain ⟨b, hb, rfl⟩ := memWrite_ok h
  exact Bus.write_wf hwf hb

/-! ### Fetch -/

/-- Fetch8 answers the byte at K:PC with PC advanced, exactly when the read succeeds (R13). -/
theorem fetch8_ok {s t : State} {b : Byte} :
    fetch8 s = .ok (b, t) ↔ memRead s (codeAddress s.k s.pc) = .ok b ∧ t = s.withPc (s.pc + 1) := by
  unfold fetch8
  split <;> rename_i h <;> simp [h, eq_comm]

/-- Fetch8 faults exactly when the read does. -/
theorem fetch8_error {s : State} {f : Fault} :
    fetch8 s = .error f ↔ memRead s (codeAddress s.k s.pc) = .error f := by
  unfold fetch8
  split <;> rename_i h <;> simp [h]

/-- The k-th byte after the next one is the (k+1)-th byte. -/
theorem pc_shift (pc : Word) (k : Nat) : pc + 1#16 + BitVec.ofNat 16 k = pc + BitVec.ofNat 16 (k + 1) := by
  apply BitVec.eq_of_toNat_eq
  simp
  omega

/-- A run of fetches that succeeds: as many bytes as asked for, in stream order, PC past the last. -/
theorem fetchBytes_ok {n : Nat} {s t : State} {bs : List Byte} (h : fetchBytes n s = .ok (bs, t)) :
    bs.length = n ∧ t = s.withPc (s.pc + BitVec.ofNat 16 n) ∧
      ∀ k (hk : k < bs.length), memRead s (codeAddress s.k (s.pc + BitVec.ofNat 16 k)) = .ok bs[k] := by
  induction n generalizing s bs with
  | zero =>
    rw [fetchBytes] at h
    cases h
    refine ⟨rfl, ?_, fun k hk => absurd hk (Nat.not_lt_zero k)⟩
    apply State.ext_fields <;> simp
  | succ n ih =>
    rw [fetchBytes] at h
    split at h
    · cases h
    · rename_i b s1 h8
      rw [fetch8_ok] at h8
      obtain ⟨hb, rfl⟩ := h8
      split at h
      · cases h
      · rename_i bs' s2 hrest
        cases h
        obtain ⟨hlen, rfl, hreads⟩ := ih hrest
        refine ⟨by simp [hlen], ?_, ?_⟩
        · apply State.ext_fields <;> simp [pc_shift]
        · intro k hk
          cases k with
          | zero => simpa using hb
          | succ k =>
            have := hreads k (by simpa using hk)
            simpa [pc_shift] using this

/-- If the stream holds these bytes, fetching them succeeds. -/
theorem fetchBytes_of_reads {s : State} {bs : List Byte}
    (h : ∀ k (hk : k < bs.length), memRead s (codeAddress s.k (s.pc + BitVec.ofNat 16 k)) = .ok bs[k]) :
    fetchBytes bs.length s = .ok (bs, s.withPc (s.pc + BitVec.ofNat 16 bs.length)) := by
  induction bs generalizing s with
  | nil =>
    have : s = s.withPc (s.pc + BitVec.ofNat 16 0) := by apply State.ext_fields <;> simp
    simpa [fetchBytes] using this
  | cons b bs ih =>
    have h0 : fetch8 s = .ok (b, s.withPc (s.pc + 1)) := fetch8_ok.2 ⟨by simpa using h 0 (Nat.zero_lt_succ _), rfl⟩
    have hrest := ih (s := s.withPc (s.pc + 1)) (fun k hk => by
      have := h (k + 1) (by simpa using hk)
      simpa [pc_shift] using this)
    simp only [List.length_cons, fetchBytes, h0, hrest]
    congr 2
    apply State.ext_fields <;> simp [pc_shift]

/-- The first faulting byte ends a run of fetches (spec/60_exceptions.md R155). -/
theorem fetchBytes_error {n m : Nat} {s : State} {f : Fault} (hn : n < m)
    (hbefore : ∀ k < n, ∃ b, memRead s (codeAddress s.k (s.pc + BitVec.ofNat 16 k)) = .ok b)
    (hat : memRead s (codeAddress s.k (s.pc + BitVec.ofNat 16 n)) = .error f) : fetchBytes m s = .error f := by
  induction n generalizing s m with
  | zero =>
    obtain ⟨m, rfl⟩ : ∃ m', m = m' + 1 := ⟨m - 1, by omega⟩
    simp [fetchBytes, fetch8_error.2 (by simpa using hat)]
  | succ n ih =>
    obtain ⟨m, rfl⟩ : ∃ m', m = m' + 1 := ⟨m - 1, by omega⟩
    obtain ⟨b, hb⟩ := hbefore 0 (by omega)
    have h0 : fetch8 s = .ok (b, s.withPc (s.pc + 1)) := fetch8_ok.2 ⟨by simpa using hb, rfl⟩
    have hrest := ih (m := m) (s := s.withPc (s.pc + 1)) (by omega) (fun k hk => by
      obtain ⟨c, hc⟩ := hbefore (k + 1) (by omega)
      exact ⟨c, by simpa [pc_shift] using hc⟩) (by simpa [pc_shift] using hat)
    simp only [fetchBytes, h0, hrest]

/-- Everything a successful instruction fetch says. -/
theorem fetchInstr_ok {s t : State} {i : Instr} (h : fetchInstr s = .ok (i, t)) :
    ∃ opcode operands, operands.length = operandCount (widthsOf s.ps) opcode ∧
      memRead s (codeAddress s.k s.pc) = .ok opcode ∧
      i = instrOf (widthsOf s.ps) opcode operands ∧
      t = s.withPc (s.pc + BitVec.ofNat 16 (1 + operands.length)) := by
  unfold fetchInstr at h
  split at h
  · cases h
  · rename_i opcode s1 h8
    rw [fetch8_ok] at h8
    obtain ⟨hop, rfl⟩ := h8
    split at h
    · cases h
    · rename_i operands s2 hops
      cases h
      obtain ⟨hlen, rfl, -⟩ := fetchBytes_ok hops
      refine ⟨opcode, operands, hlen, hop, rfl, ?_⟩
      apply State.ext_fields <;> simp [pc_shift, hlen, Nat.add_comm 1]

end Sys2Proof.Machine
end

