-- ==== Sys2Proof/Laws/Families.lean ====
section
/-! SUPPORT. What the shared operations of the families do, said once: branches, compare, the end of ADC and SBC,
increment and decrement. -/

namespace Sys2Proof.Machine

/-! ### Branches -/

/-- BranchTo of an 8-bit displacement is addition modulo 2^16 of its sign extension (spec/42_branch.md R110). -/
theorem State.branchTo_sext8 (s : State) (disp : Byte) :
    s.branchTo (sext8 disp) = s.withPc (s.pc + disp.signExtend 16) := by
  rw [State.branchTo, sext8, BitVec.ofInt_add, BitVec.signExtend]
  congr 2
  exact BitVec.eq_of_toNat_eq (by simp)

/-- BranchTo of a 16-bit displacement is addition modulo 2^16 (R118). -/
theorem State.branchTo_sext16 (s : State) (disp : Word) : s.branchTo (sext16 disp) = s.withPc (s.pc + disp) := by
  rw [State.branchTo, sext16, BitVec.ofInt_add, BitVec.ofInt_toInt]
  congr 2
  exact BitVec.eq_of_toNat_eq (by simp)

/-- A conditional branch is the taken or the untaken state, PC alone different. -/
theorem State.branchIf_eq (s : State) (taken : Bool) (disp : Byte) :
    s.branchIf taken disp = s.withPc (if taken then s.pc + disp.signExtend 16 else s.pc) := by
  cases taken
  · rfl
  · simp [State.branchIf, State.branchTo_sext8]

/-! ### Compare -/

/-- Compare is a write of PS. -/
theorem State.compare_eq (s : State) (reg op : Nat) (w : Width) : s.compare reg op w = s.withPs (s.compare reg op w).ps :=
  rfl

/-- The flags after Compare: C, Z and N written, the rest kept (spec/41_compare.md R105). -/
@[simp] theorem State.flag_compare (s : State) (reg op : Nat) (w : Width) (f : Flag) :
    (s.compare reg op w).flag f =
      if f = .N then signBit w (wrap w ((reg : Int) - op))
      else if f = .Z then decide (wrap w ((reg : Int) - op) = 0)
      else if f = .C then decide (reg ≥ op) else s.flag f := by
  simp [State.compare, State.flag_eq]

/-! ### The end of ADC and SBC -/

/-- The flags after storeAlu: C, V, Z and N written, the rest kept (spec/40_arithmetic.md R90). -/
@[simp] theorem State.flag_storeAlu (s : State) (w : Width) (res : AluResult) (f : Flag) :
    (s.storeAlu w res).flag f =
      if f = .N then signBit w res.r else if f = .Z then decide (res.r = 0)
      else if f = .V then res.v else if f = .C then res.c else s.flag f := by
  simp [State.storeAlu, State.flag_eq]

/-! ### Increment and decrement -/

/-- The value Inc writes, without integers (spec/43_incdec.md R120). -/
theorem incValue_eq (r : Word) (w : Width) : incValue r w = (low r w + 1) % w.modulus := by
  cases w <;> simp only [incValue, wrap, Width.modulus] <;> omega

/-- The value Dec writes, without integers (R120). -/
theorem decValue_eq (r : Word) (w : Width) : decValue r w = (low r w + (w.modulus - 1)) % w.modulus := by
  cases w <;> simp only [decValue, wrap, Width.modulus] <;> omega

theorem incValue_lt (r : Word) (w : Width) : incValue r w < w.modulus := wrap_lt w _

theorem decValue_lt (r : Word) (w : Width) : decValue r w < w.modulus := wrap_lt w _

end Sys2Proof.Machine
end

