-- ==== Sys2Proof/Laws/PerInstr.lean ====
section
/-! SUPPORT. The per-instruction family OneEncoding: an encoding is its opcode byte, which selects the row, followed by
exactly the operand bytes that row asks for. -/

namespace Sys2Proof.Laws.OneEncoding

/-- The encoding of `i` starts with an opcode byte and has that opcode's number of operand bytes (R70, R72, R73). -/
def Statement (i : Instr) : Prop :=
  ∀ c, WellFormed c i = true → ∃ opcode operands,
    encode c i = opcode :: operands ∧ operands.length = operandCount c opcode

theorem adcImm (imm : Word) : Statement (.adcImm imm) := by
  rintro ⟨m8, x8⟩ -
  exact ⟨_, _, rfl, by cases m8 <;> rfl⟩

theorem sbcImm (imm : Word) : Statement (.sbcImm imm) := by
  rintro ⟨m8, x8⟩ -
  exact ⟨_, _, rfl, by cases m8 <;> rfl⟩

theorem cmpImm (imm : Word) : Statement (.cmpImm imm) := by
  rintro ⟨m8, x8⟩ -
  exact ⟨_, _, rfl, by cases m8 <;> rfl⟩

theorem cpxImm (imm : Word) : Statement (.cpxImm imm) := by
  rintro ⟨m8, x8⟩ -
  exact ⟨_, _, rfl, by cases x8 <;> rfl⟩

theorem cpyImm (imm : Word) : Statement (.cpyImm imm) := by
  rintro ⟨m8, x8⟩ -
  exact ⟨_, _, rfl, by cases x8 <;> rfl⟩

theorem bpl (disp : Byte) : Statement (.bpl disp) := fun _ _ => ⟨_, _, rfl, rfl⟩

theorem bmi (disp : Byte) : Statement (.bmi disp) := fun _ _ => ⟨_, _, rfl, rfl⟩

theorem bcc (disp : Byte) : Statement (.bcc disp) := fun _ _ => ⟨_, _, rfl, rfl⟩

theorem bcs (disp : Byte) : Statement (.bcs disp) := fun _ _ => ⟨_, _, rfl, rfl⟩

theorem bne (disp : Byte) : Statement (.bne disp) := fun _ _ => ⟨_, _, rfl, rfl⟩

theorem beq (disp : Byte) : Statement (.beq disp) := fun _ _ => ⟨_, _, rfl, rfl⟩

theorem bra (disp : Byte) : Statement (.bra disp) := fun _ _ => ⟨_, _, rfl, rfl⟩

theorem brl (disp : Word) : Statement (.brl disp) := fun _ _ => ⟨_, _, rfl, rfl⟩

theorem inx : Statement .inx := fun _ _ => ⟨_, _, rfl, rfl⟩

theorem iny : Statement .iny := fun _ _ => ⟨_, _, rfl, rfl⟩

theorem dex : Statement .dex := fun _ _ => ⟨_, _, rfl, rfl⟩

theorem dey : Statement .dey := fun _ _ => ⟨_, _, rfl, rfl⟩

theorem incA : Statement .incA := fun _ _ => ⟨_, _, rfl, rfl⟩

theorem decA : Statement .decA := fun _ _ => ⟨_, _, rfl, rfl⟩

theorem clc : Statement .clc := fun _ _ => ⟨_, _, rfl, rfl⟩

theorem sec : Statement .sec := fun _ _ => ⟨_, _, rfl, rfl⟩

theorem cld : Statement .cld := fun _ _ => ⟨_, _, rfl, rfl⟩

theorem sed : Statement .sed := fun _ _ => ⟨_, _, rfl, rfl⟩

theorem cli : Statement .cli := fun _ _ => ⟨_, _, rfl, rfl⟩

theorem sei : Statement .sei := fun _ _ => ⟨_, _, rfl, rfl⟩

theorem clv : Statement .clv := fun _ _ => ⟨_, _, rfl, rfl⟩

theorem rep (mask : Byte) : Statement (.rep mask) := fun _ _ => ⟨_, _, rfl, rfl⟩

theorem sep (mask : Byte) : Statement (.sep mask) := fun _ _ => ⟨_, _, rfl, rfl⟩

theorem jmpAbs (target : Word) : Statement (.jmpAbs target) := fun _ _ => ⟨_, _, rfl, rfl⟩

theorem jmlLong (target : Addr) : Statement (.jmlLong target) := fun _ _ => ⟨_, _, rfl, rfl⟩

theorem unimplemented (opcode : Byte) : Statement (.unimplemented opcode) := by
  intro c h
  refine ⟨opcode, [], rfl, ?_⟩
  rw [operandCount, formOf_default (by simpa [WellFormed] using h)]
  rfl

end Sys2Proof.Laws.OneEncoding
end

