-- ==== Sys2Proof/Laws/Step.lean ====
section
/-! SUPPORT. What a step and an instruction can do, said once. -/

namespace Sys2Proof.Machine

/-- A running state whose fetch faults: the step ends in that fault. -/
theorem step_fetch_error {s : State} {f : Fault} (h : s.status = .running) (hf : fetchInstr s = .error f) :
    step s = .fault f := by
  simp only [step, h, hf, raise]

/-- A running state whose fetch succeeds: the step is the instruction, on the state with PC past it. -/
theorem step_fetch_ok {s s' : State} {i : Instr} (h : s.status = .running) (hf : fetchInstr s = .ok (i, s')) :
    step s = exec i s' := by
  simp only [step, h, hf]

/-- A faulted state has no step. -/
theorem step_faulted {s : State} {f : Fault} (h : s.status = .faulted f) : step s = .refused .stepAfterFault := by
  simp only [step, h]

/-- A step that completes fetched an instruction, and the instruction answered the next state. -/
theorem step_next {s t : State} (h : step s = .next t) :
    s.status = .running ∧ ∃ i s', fetchInstr s = .ok (i, s') ∧ exec i s' = .next t := by
  cases hs : s.status with
  | faulted f => rw [step_faulted hs] at h; cases h
  | running =>
    refine ⟨rfl, ?_⟩
    cases hf : fetchInstr s with
    | error f => rw [step_fetch_error hs hf] at h; cases h
    | ok r => exact ⟨r.1, r.2, rfl, (step_fetch_ok hs hf).symm.trans h⟩

/-- What every instruction that completes leaves alone: SP, D, DBR, E, the bus and the run status. -/
theorem exec_keeps {i : Instr} {s t : State} (h : exec i s = .next t) :
    t.sp = s.sp ∧ t.d = s.d ∧ t.dbr = s.dbr ∧ t.e = s.e ∧ t.bus = s.bus ∧ t.status = s.status := by
  cases i <;> cases h <;>
    first
    | exact ⟨rfl, rfl, rfl, rfl, rfl, rfl⟩
    | (simp only [State.branchIf]; split <;> exact ⟨rfl, rfl, rfl, rfl, rfl, rfl⟩)
    | (split <;> exact ⟨rfl, rfl, rfl, rfl, rfl, rfl⟩)

/-- Fetching leaves alone everything but PC. -/
theorem fetchInstr_keeps {s t : State} {i : Instr} (h : fetchInstr s = .ok (i, t)) :
    t.sp = s.sp ∧ t.d = s.d ∧ t.dbr = s.dbr ∧ t.e = s.e ∧ t.bus = s.bus ∧ t.status = s.status := by
  obtain ⟨opcode, operands, -, -, -, rfl⟩ := fetchInstr_ok h
  exact ⟨rfl, rfl, rfl, rfl, rfl, rfl⟩

end Sys2Proof.Machine
end

