-- ==== Sys2Proof/Tests/Slice0.lean ====
section
/-! SUPPORT. The model's own tests. Expected results are the spec's: the encodings of spec/30_encoding.md R71 and R72,
the examples of the rules and the vectors of spec/95_test_vectors.md. The last part shows, for every obligation with
hypotheses, a state that meets them together. -/

namespace Sys2Proof.Tests

open Sys2Proof.Machine

/-! ### Builders -/

/-- Running, with code at the start of RAM and PC on it, through bank 0x7E. -/
def start (ps : Byte) (code : List Byte) : State :=
  { a := 0x0000, x := 0x0000, y := 0x0000, sp := 0x01FF, d := 0x0000, pc := 0x0000, k := 0x7E, dbr := 0x00, ps := ps,
    e := true, bus := { ram := Memory.ofBytes code, rom := [] }, status := .running }

/-- Running in bank 0x00, with code in ROM page 0 at this offset and PC on it. -/
def startRom (ps : Byte) (pc : Word) (code : List Byte) : State :=
  { start ps [] with pc := pc, k := 0x00, bus := { ram := [], rom := Memory.ofBytesFrom (pc.toNat % 0x8000) code } }

/-- Running in bank 0x00 with one opcode byte in the last byte of the RAM mirror: its operand would be at 0x00:2000,
which is no storage. -/
def edge (ps op : Byte) : State :=
  { start ps [] with pc := 0x1FFF, k := 0x00, bus := { ram := Memory.ofBytesFrom 0x1FFF [op], rom := [] } }

/-- The next state of a step, if there is one. -/
def after (s : State) : Option State :=
  match step s with
  | .next t => some t
  | .fault _ => none
  | .refused _ => none

/-- The next state of an instruction, if there is one. -/
def run1 (i : Instr) (s : State) : Option State :=
  match exec i s with
  | .next t => some t
  | .fault _ => none
  | .refused _ => none

/-- The fault of a step, if there is one. -/
def faultOf (s : State) : Option Fault :=
  match step s with
  | .next _ => none
  | .fault f => some f
  | .refused _ => none

/-! ### WellFormed refuses each ill-formed term -/

theorem test_wf_adc_narrow : WellFormed ⟨true, false⟩ (.adcImm 0x0100) = false := by decide
theorem test_wf_adc_wide : WellFormed ⟨false, true⟩ (.adcImm 0x0100) = true := by decide
theorem test_wf_sbc_narrow : WellFormed ⟨true, false⟩ (.sbcImm 0x0100) = false := by decide
theorem test_wf_cmp_narrow : WellFormed ⟨true, false⟩ (.cmpImm 0xFFFF) = false := by decide
theorem test_wf_cpx_narrow : WellFormed ⟨false, true⟩ (.cpxImm 0x0100) = false := by decide
theorem test_wf_cpx_wide : WellFormed ⟨true, false⟩ (.cpxImm 0x0100) = true := by decide
theorem test_wf_cpy_narrow : WellFormed ⟨false, true⟩ (.cpyImm 0x8000) = false := by decide
theorem test_wf_unimplemented_admitted_byte : WellFormed ⟨true, true⟩ (.unimplemented 0x69) = false := by decide
theorem test_wf_unimplemented_other_byte : WellFormed ⟨true, true⟩ (.unimplemented 0x00) = true := by decide

/-! ### Decoding: one word per constructor, its bits from R71 and R72 -/

theorem test_decode_adc8 : decode ⟨true, false⟩ [0b01101001, 0b10000001] = .ok (.adcImm 0x0081, []) := by decide
theorem test_decode_adc16 :
    decode ⟨false, true⟩ [0b01101001, 0b00110100, 0b00010010] = .ok (.adcImm 0x1234, []) := by decide
theorem test_decode_sbc8 : decode ⟨true, false⟩ [0b11101001, 0b00000001] = .ok (.sbcImm 0x0001, []) := by decide
theorem test_decode_cmp16 :
    decode ⟨false, true⟩ [0b11001001, 0b11111111, 0b00001111] = .ok (.cmpImm 0x0FFF, []) := by decide
theorem test_decode_cpx8 : decode ⟨false, true⟩ [0b11100000, 0b00000101] = .ok (.cpxImm 0x0005, []) := by decide
theorem test_decode_cpy16 :
    decode ⟨true, false⟩ [0b11000000, 0b11111111, 0b00001111] = .ok (.cpyImm 0x0FFF, []) := by decide
theorem test_decode_bpl : decode resetWidths [0b00010000, 0b00000101] = .ok (.bpl 0x05, []) := by decide
theorem test_decode_bmi : decode resetWidths [0b00110000, 0b10000000] = .ok (.bmi 0x80, []) := by decide
theorem test_decode_bcc : decode resetWidths [0b10010000, 0b11111110] = .ok (.bcc 0xFE, []) := by decide
theorem test_decode_bcs : decode resetWidths [0b10110000, 0b00010000] = .ok (.bcs 0x10, []) := by decide
theorem test_decode_bne : decode resetWidths [0b11010000, 0b11111011] = .ok (.bne 0xFB, []) := by decide
theorem test_decode_beq : decode resetWidths [0b11110000, 0b11111100] = .ok (.beq 0xFC, []) := by decide
theorem test_decode_bra : decode resetWidths [0b10000000, 0b11111110] = .ok (.bra 0xFE, []) := by decide
theorem test_decode_brl : decode resetWidths [0b10000010, 0b11111101, 0b01111111] = .ok (.brl 0x7FFD, []) := by decide
theorem test_decode_inx : decode resetWidths [0b11101000] = .ok (.inx, []) := by decide
theorem test_decode_iny : decode resetWidths [0b11001000] = .ok (.iny, []) := by decide
theorem test_decode_dex : decode resetWidths [0b11001010] = .ok (.dex, []) := by decide
theorem test_decode_dey : decode resetWidths [0b10001000] = .ok (.dey, []) := by decide
theorem test_decode_inc_a : decode resetWidths [0b00011010] = .ok (.incA, []) := by decide
theorem test_decode_dec_a : decode resetWidths [0b00111010] = .ok (.decA, []) := by decide
theorem test_decode_clc : decode resetWidths [0b00011000] = .ok (.clc, []) := by decide
theorem test_decode_sec : decode resetWidths [0b00111000] = .ok (.sec, []) := by decide
theorem test_decode_cld : decode resetWidths [0b11011000] = .ok (.cld, []) := by decide
theorem test_decode_sed : decode resetWidths [0b11111000] = .ok (.sed, []) := by decide
theorem test_decode_cli : decode resetWidths [0b01011000] = .ok (.cli, []) := by decide
theorem test_decode_sei : decode resetWidths [0b01111000] = .ok (.sei, []) := by decide
theorem test_decode_clv : decode resetWidths [0b10111000] = .ok (.clv, []) := by decide
theorem test_decode_rep : decode resetWidths [0b11000010, 0b00110000] = .ok (.rep 0x30, []) := by decide
theorem test_decode_sep : decode resetWidths [0b11100010, 0b00010000] = .ok (.sep 0x10, []) := by decide
theorem test_decode_jmp : decode resetWidths [0b01001100, 0b00110100, 0b00010010] = .ok (.jmpAbs 0x1234, []) := by
  decide
theorem test_decode_jml :
    decode resetWidths [0b01011100, 0b00010000, 0b10000001, 0b01111110] = .ok (.jmlLong 0x7E8110, []) := by decide
theorem test_decode_unimplemented : decode resetWidths [0b01000010, 0b00000001] = .ok (.unimplemented 0x42, [0x01]) := by
  decide
theorem test_decode_empty : decode resetWidths [] = .error .noOpcode := by decide
theorem test_decode_short : decode resetWidths [0x5C, 0x00, 0x80] = .error (.operandMissing 0x5C) := by decide
theorem test_decode_table_word : decodeTableWord 32 0x7E81105C = some (.jmlLong 0x7E8110) := by decide
theorem test_decode_table_short_word : decodeTableWord 8 0x69 = some (.adcImm 0x0000) := by decide

/-! ### One step per instruction: the rules' own examples and corner cases -/

/-- R90's example: decimal 09 + 01 = 10. -/
theorem test_adc_decimal :
    (after ({ start 0x38 [0x69, 0x01] with a := 0x0009 })).map (fun t => (t.a, t.ps, t.pc)) =
      some (0x0010, 0x38, 0x0002) := by decide
/-- R93: decimal 45 + 55 = 00 with C = 1 and V = 1. -/
theorem test_adc_decimal_overflow :
    (after ({ start 0x38 [0x69, 0x55] with a := 0x0045 })).map (fun t => (t.a, t.ps)) = some (0x0000, 0x7B) := by decide
/-- R91's example: decimal 10 - 01 = 09. -/
theorem test_sbc_decimal :
    (after ({ start 0x39 [0xE9, 0x01] with a := 0x0010 })).map (fun t => (t.a, t.ps)) = some (0x0009, 0x39) := by decide
/-- R91: 00 - 00 with a borrow in is 0xFF in binary mode, C = 0; the hidden byte is kept (R26). -/
theorem test_sbc_borrow_hidden :
    (after ({ start 0x30 [0xE9, 0x00] with a := 0xAB00 })).map (fun t => (t.a, t.ps)) = some (0xABFF, 0xB0) := by decide
/-- R106's example. -/
theorem test_cmp :
    (after ({ start 0x20 [0xC9, 0x50] with a := 0x0030 })).map (fun t => (t.a, t.ps)) = some (0x0030, 0xA0) := by decide
/-- R107's example: the hidden byte takes no part. -/
theorem test_cpx_hidden :
    (after ({ start 0x10 [0xE0, 0x05] with x := 0x0105 })).map (fun t => (t.x, t.ps)) = some (0x0105, 0x13) := by decide
/-- R108's example. -/
theorem test_cpy_wide :
    (after ({ start 0x00 [0xC0, 0xFF, 0x0F] with y := 0x1000 })).map (fun t => (t.pc, t.ps)) = some (0x0003, 0x01) := by
  decide
/-- R111's example. -/
theorem test_bpl : (after (startRom 0x00 0x8000 [0x10, 0x05])).map (fun t => t.pc) = some 0x8007 := by decide
/-- R112's example. -/
theorem test_bmi : (after (startRom 0x80 0x8000 [0x30, 0x80])).map (fun t => t.pc) = some 0x7F82 := by decide
/-- R113's example. -/
theorem test_bcc : (after (startRom 0x00 0x8010 [0x90, 0xFE])).map (fun t => t.pc) = some 0x8010 := by decide
/-- R114's example: not taken. -/
theorem test_bcs : (after (startRom 0x00 0x8000 [0xB0, 0x10])).map (fun t => t.pc) = some 0x8002 := by decide
/-- R115's example. -/
theorem test_bne : (after (startRom 0x00 0x8005 [0xD0, 0xFB])).map (fun t => t.pc) = some 0x8002 := by decide
/-- R116's example. -/
theorem test_beq : (after (startRom 0x02 0xFFFC [0xF0, 0xFC])).map (fun t => t.pc) = some 0xFFFA := by decide
/-- R117's example. -/
theorem test_bra : (after (start 0x00 [0x80, 0xFE])).map (fun t => t.pc) = some 0x0000 := by decide
/-- R118's example: the target wraps in the bank, K is kept. -/
theorem test_brl : (after (startRom 0x00 0x8000 [0x82, 0x00, 0x80])).map (fun t => (t.k, t.pc)) = some (0x00, 0x0003) := by
  decide
/-- R121: with x = 1 the high byte is kept. -/
theorem test_inx_hidden :
    (after ({ start 0x10 [0xE8] with x := 0x12FF })).map (fun t => (t.x, t.ps)) = some (0x1200, 0x12) := by decide
/-- R122's example. -/
theorem test_iny :
    (after ({ start 0x10 [0xC8] with y := 0x007F })).map (fun t => (t.y, t.ps)) = some (0x0080, 0x90) := by decide
/-- R123: with x = 0 the decrement wraps modulo 2^16. -/
theorem test_dex_wrap : (after (start 0x00 [0xCA])).map (fun t => (t.x, t.ps)) = some (0xFFFF, 0x80) := by decide
/-- R124's example. -/
theorem test_dey :
    (after ({ start 0x00 [0x88] with y := 0x0100 })).map (fun t => (t.y, t.ps)) = some (0x00FF, 0x00) := by decide
/-- R125: C is not changed by the wrap. -/
theorem test_inc_a_hidden :
    (after ({ start 0x20 [0x1A] with a := 0xABFF })).map (fun t => (t.a, t.ps)) = some (0xAB00, 0x22) := by decide
/-- R126: with m = 0. -/
theorem test_dec_a :
    (after ({ start 0x00 [0x3A] with a := 0x8000 })).map (fun t => (t.a, t.ps)) = some (0x7FFF, 0x00) := by decide
/-- R130's example. -/
theorem test_clc : (after (start 0x35 [0x18])).map (fun t => t.ps) = some 0x34 := by decide
/-- R131's example. -/
theorem test_sec : (after (start 0x04 [0x38])).map (fun t => t.ps) = some 0x05 := by decide
/-- R132's example. -/
theorem test_cld : (after (start 0x0C [0xD8])).map (fun t => t.ps) = some 0x04 := by decide
/-- R133's example. -/
theorem test_sed : (after (start 0x04 [0xF8])).map (fun t => t.ps) = some 0x0C := by decide
/-- R134's example. -/
theorem test_cli : (after (start 0x04 [0x58])).map (fun t => t.ps) = some 0x00 := by decide
/-- R135's example. -/
theorem test_sei : (after (start 0x00 [0x78])).map (fun t => t.ps) = some 0x04 := by decide
/-- R136's example. -/
theorem test_clv : (after (start 0x44 [0xB8])).map (fun t => t.ps) = some 0x04 := by decide
/-- R137's example, and REP leaves X's high byte. -/
theorem test_rep_emulation :
    (after ({ start 0x04 [0xC2, 0x04] with x := 0xFFFF })).map (fun t => (t.x, t.ps)) = some (0xFFFF, 0x30) := by decide
/-- R137: in native mode REP widens. -/
theorem test_rep_native :
    (after ({ start 0x34 [0xC2, 0x30] with e := false })).map (fun t => t.ps) = some 0x04 := by decide
/-- R138's example. -/
theorem test_sep :
    (after ({ start 0x04 [0xE2, 0x10] with x := 0x1234, y := 0xABCD })).map (fun t => (t.ps, t.x, t.y)) =
      some (0x14, 0x0034, 0x00CD) := by decide
/-- R138: SEP #$00 truncates too where x is 1 already, and never A. -/
theorem test_sep_zero_mask :
    (after ({ start 0x10 [0xE2, 0x00] with a := 0x1234, x := 0xFFFF })).map (fun t => (t.a, t.x)) =
      some (0x1234, 0x00FF) := by decide
/-- R145's example. -/
theorem test_jmp : (after (startRom 0x00 0x8000 [0x4C, 0x34, 0x12])).map (fun t => (t.k, t.pc)) = some (0x00, 0x1234) := by
  decide
/-- R146's example. -/
theorem test_jml :
    (after (startRom 0x00 0x8000 [0x5C, 0x00, 0x80, 0x81])).map (fun t => (t.k, t.pc)) = some (0x81, 0x8000) := by decide
/-- R74, R152: BRK's byte is unimplemented; the address is the opcode's. -/
theorem test_unimplemented :
    faultOf (start 0x00 [0xEA]) = some (.unimplementedOpcode 0xEA 0x7E0000) := by decide

/-! ### Fetching, the bus and construction -/

/-- R153: PC runs off the RAM mirror into the hardware registers. -/
theorem test_fetch_off_the_mirror :
    faultOf ({ edge 0x00 0x80 with pc := 0x2000 }) =
      some (.reservedRegionAccess 0x002000 .read .hardwareRegisters) := by decide
/-- R153: open bus. -/
theorem test_fetch_open_bus : faultOf ({ start 0x00 [] with k := 0x00, pc := 0x3000 }) = some (.unmappedAccess 0x003000 .read) := by
  decide
/-- R38: PC wraps inside the bank, here from 0x7E:FFFF to 0x7E:0000. -/
theorem test_fetch_wraps_in_the_bank :
    (after ({ start 0x00 [0x02] with pc := 0xFFFF, bus := { ram := [(0, 0x02), (0xFFFF, 0x80)], rom := [] } })).map
      (fun t => (t.k, t.pc)) = some (0x7E, 0x0003) := by decide
/-- R55: banks with equal low nibble read the same page. -/
theorem test_rom_mirrors :
    decodeAddress 0xF08000 = .rom 0 ∧ decodeAddress 0x818000 = .rom 0x8000 ∧ decodeAddress 0x7DFFFF = .rom 0x6FFFF := by
  decide
/-- R54's example: the two cells are 0x10000 apart. -/
theorem test_ram_cells : decodeAddress 0x7E0000 = .ram 0 ∧ decodeAddress 0x7F0000 = .ram 0x10000 := by decide
/-- R171's example. -/
theorem test_reset_vector : (State.construct [(0x7FFC, 0x34), (0x7FFD, 0x12)] []).pc = 0x1234 := by decide
/-- R46: PS after construction. -/
theorem test_reset_ps : State.reset.ps = 0x04 ∧ State.reset.sp = 0x01FF ∧ State.reset.e = true := by decide
/-- A table word placed on the state after reset is what the very next step runs. -/
theorem test_with_fetch_word :
    (after (State.reset.withFetchWord 32 0x7E81105C)).map (fun t => (t.k, t.pc)) = some (0x7E, 0x8110) := by decide
/-- A program placed where there is no storage moves the fetch to 0x7E:0000. -/
theorem test_with_fetch_word_moved :
    (after (({ State.reset with pc := 0x3000 } : State).withFetchWord 8 0xE8)).map (fun t => (t.k, t.pc, t.x)) =
      some (0x7E, 0x0001, 0x0001) := by decide

/-! ### Witnesses: for every obligation with hypotheses, a state and operands that meet them together -/

theorem witness_encode_narrow : WellFormed ⟨true, false⟩ (.adcImm 0x00FF) = true := by decide
theorem witness_encode_wide : WellFormed ⟨false, false⟩ (.adcImm 0xFFFF) = true := by decide
theorem witness_decode_answers : decode ⟨true, true⟩ [0x69, 0xFF, 0x18] = .ok (.adcImm 0x00FF, [0x18]) := by decide

theorem witness_opcodes :
    (0x5C : Byte) ∈ admittedOpcodes ∧ (0x00 : Byte) ∉ admittedOpcodes ∧ (0xFF : Byte) ∉ admittedOpcodes ∧
      (0xC9 : Byte) ∈ ([0x69, 0xE9, 0xC9] : List Byte) ∧ (0xC0 : Byte) ∈ ([0xE0, 0xC0] : List Byte) := by decide

theorem code_rep_adc : CodeBytes (start 0x30 [0xC2, 0x20, 0x69, 0x34, 0x12]) [0xC2, 0x20, 0x69, 0x34, 0x12] := by
  unfold CodeBytes
  decide

theorem witness_step_runs :
    (start 0x30 [0x69, 0x01]).status = .running ∧
      decode (widthsOf (start 0x30 [0x69, 0x01]).ps) [0x69, 0x01] = .ok (.adcImm 0x0001, []) ∧
      CodeBytes (start 0x30 [0x69, 0x01]) [0x69, 0x01] := by
  unfold CodeBytes
  decide

/-- Clause 1 of the fetch order: the opcode byte itself is in a fault region (0x00:2000). -/
theorem witness_fetch_order_opcode :
    memRead ({ start 0x00 [] with k := 0x00, pc := 0x2000 }) (codeAddress 0x00 0x2000) =
      .error (.reservedRegionAccess 0x002000 .read .hardwareRegisters) := by decide

/-- Clause 2: an unimplemented byte whose operand could not be read either. -/
theorem witness_fetch_order_unimplemented :
    (edge 0x00 0x01).status = .running ∧
      memRead (edge 0x00 0x01) (codeAddress (edge 0x00 0x01).k (edge 0x00 0x01).pc) = .ok 0x01 ∧
      (0x01 : Byte) ∉ admittedOpcodes := by decide

/-- Clause 3 and `OperandFetchFaults`, for every opcode with operand bytes: byte 1 is at 0x00:2000. -/
theorem witness_operand_fault :
    ∀ op ∈ ([0x69, 0xE9, 0xC9, 0xE0, 0xC0, 0x10, 0x30, 0x90, 0xB0, 0xD0, 0xF0, 0x80, 0x82, 0xC2, 0xE2, 0x4C, 0x5C] :
      List Byte),
      (edge 0x00 op).status = .running ∧ op ∈ admittedOpcodes ∧
      memRead (edge 0x00 op) (codeAddress (edge 0x00 op).k (edge 0x00 op).pc) = .ok op ∧
      0 < operandCount (widthsOf (edge 0x00 op).ps) op ∧
      memRead (edge 0x00 op) (codeAddress (edge 0x00 op).k ((edge 0x00 op).pc + BitVec.ofNat 16 (1 + 0))) =
        .error (.reservedRegionAccess 0x002000 .read .hardwareRegisters) := by decide

/-- Clause 3 at its last operand byte: JML at 0x00:1FFD, byte 3 at 0x00:2000. -/
theorem witness_operand_fault_last :
    ∃ s : State, s.status = .running ∧ memRead s (codeAddress s.k s.pc) = .ok 0x5C ∧
      2 < operandCount (widthsOf s.ps) 0x5C ∧
      (∀ j < 2, memRead s (codeAddress s.k (s.pc + BitVec.ofNat 16 (1 + j))) = .ok 0x00) ∧
      memRead s (codeAddress s.k (s.pc + BitVec.ofNat 16 (1 + 2))) =
        .error (.reservedRegionAccess 0x002000 .read .hardwareRegisters) :=
  ⟨{ start 0x00 [] with pc := 0x1FFD, k := 0x00, bus := { ram := [(0x1FFD, 0x5C)], rom := [] } }, by decide⟩

theorem witness_unimplemented_step :
    (start 0x00 [0xEA]).status = .running ∧
      memRead (start 0x00 [0xEA]) (codeAddress (start 0x00 [0xEA]).k (start 0x00 [0xEA]).pc) = .ok 0xEA ∧
      (0xEA : Byte) ∉ admittedOpcodes := by decide

theorem witness_running : (start 0x00 [0xE8]).status = .running := rfl

theorem witness_faulted :
    ({ start 0x00 [] with status := .faulted (.unmappedAccess 0x003000 .read) } : State).status =
      .faulted (.unmappedAccess 0x003000 .read) := rfl

/-- The hypothesis of the statements about a faulting step, one per kind a step can raise. -/
theorem witness_step_faults :
    faultOf (start 0x00 [0x00]) = some (.unimplementedOpcode 0x00 0x7E0000) ∧
      faultOf ({ start 0x00 [] with k := 0x40, pc := 0x7FFF }) = some (.unmappedAccess 0x407FFF .read) ∧
      faultOf ({ start 0x00 [] with k := 0x70, pc := 0x0000 }) = some (.reservedRegionAccess 0x700000 .read .saveRam) ∧
      faultOf ({ start 0x00 [] with k := 0xBF, pc := 0x4FFF }) =
        some (.reservedRegionAccess 0xBF4FFF .read .reservedIO) := by decide

theorem witness_admitted_instruction : ∀ op, Instr.inx ≠ .unimplemented op := by
  intro op h
  cases h

theorem witness_straight_line :
    ∃ s t : State, memRead s (codeAddress s.k s.pc) = .ok 0x69 ∧
      (0x69 : Byte) ∉ ([0x10, 0x30, 0x90, 0xB0, 0xD0, 0xF0, 0x80, 0x82, 0x4C, 0x5C] : List Byte) ∧ step s = .next t :=
  ⟨start 0x30 [0x69, 0x01], _, by decide, by decide, rfl⟩

theorem witness_bank_changes : ∃ s t : State, step s = .next t ∧ t.k ≠ s.k :=
  ⟨start 0x00 [0x5C, 0x00, 0x80, 0x81], _, rfl, by decide⟩

/-- A changed flag, for each of the eight. -/
theorem witness_flags_change :
    ∀ f ∈ [Flag.C, .Z, .I, .D, .x, .m, .V, .N],
      (run1 (.sep 0xFF) (start 0x00 [])).map (fun t => t.flag f) = some true ∧ (start 0x00 []).flag f = false := by decide

/-- A changed A, X and Y. -/
theorem witness_registers_change :
    (run1 .incA (start 0x00 [])).map (fun t => t.a) = some 0x0001 ∧
      (run1 .inx (start 0x00 [])).map (fun t => t.x) = some 0x0001 ∧
      (run1 (.sep 0x10) ({ start 0x00 [] with y := 0x0100 })).map (fun t => t.y) = some 0x0000 := by decide

theorem witness_step_completes : ∃ s t : State, step s = .next t ∧ s.bus.wf = true :=
  ⟨start 0x00 [0xE8], _, rfl, by decide⟩

theorem witness_not_rep :
    memRead (start 0x00 [0xE8]) (codeAddress (start 0x00 [0xE8]).k (start 0x00 [0xE8]).pc) ≠ .ok 0xC2 := by decide

/-- A changed I. -/
theorem witness_irq_disable_changes :
    (run1 .cli (start 0x04 [])).map (fun t => t.flag .I) = some false ∧ (start 0x04 []).flag .I = true := by decide

theorem witness_neither_adc_nor_sbc :
    (∀ imm, Instr.cmpImm 0x0001 ≠ .adcImm imm) ∧ (∀ imm, Instr.cmpImm 0x0001 ≠ .sbcImm imm) := by
  constructor <;> intro imm h <;> cases h

/-- Clauses 1 and 2 of the hidden bytes: 8-bit widths, and an instruction that is no SEP. -/
theorem witness_hidden_bytes :
    (start 0x30 []).flag .m = true ∧ (start 0x30 []).flag .x = true ∧
      (run1 .inx ({ start 0x30 [] with x := 0x12FF })).isSome = true ∧ ∀ mask, Instr.inx ≠ .sep mask := by
  refine ⟨by decide, by decide, by decide, ?_⟩
  intro mask h
  cases h

/-- Clauses 3 and 4: REP in emulation mode changes m and x. -/
theorem witness_hidden_bytes_widths_change :
    (run1 (.rep 0x00) (start 0x00 [])).map (fun t => (t.flag .m, t.flag .x)) = some (true, true) ∧
      (start 0x00 []).flag .m = false ∧ (start 0x00 []).flag .x = false := by decide

theorem witness_widths : (start 0x20 []).flag .m = true ∧ (start 0x00 []).flag .m = false := by decide

theorem witness_operands_fit : 0xFF < Width.w8.modulus ∧ 0xFFFF < Width.w16.modulus := by decide

/-- Valid BCD operands at both widths, at the ends of their range. -/
theorem witness_bcd :
    (start 0x28 []).flag .D = true ∧ IsBcd (low 0x0099 .w8) ∧ IsBcd (low 0x9999 .w16) ∧ IsBcd (low 0x0000 .w16) ∧
      ({ start 0x28 [] with a := 0x0099 } : State).wA = .w8 ∧ ({ start 0x08 [] with a := 0x9999 } : State).wA = .w16 := by
  unfold IsBcd
  decide

theorem witness_binary_mode : (start 0x20 []).flag .D = false := by decide

theorem witness_compare_completes : ∃ s t : State, exec (.cmpImm 0x8000) s = .next t := ⟨start 0x00 [], _, rfl⟩

theorem witness_halted : HaltedAt 0x7E0000 (start 0x00 [0x80, 0xFE]) := by
  refine ⟨rfl, by decide, ?_⟩
  unfold CodeBytes
  decide

theorem witness_incdec_widths :
    ∃ (s : State) (wa wxy : Width), wa = (if s.flag .m then .w8 else .w16) ∧ wxy = (if s.flag .x then .w8 else .w16) :=
  ⟨start 0x20 [], .w8, .w16, by decide, by decide⟩

/-- Laws 1, 2 and 4 of the mode switches. -/
theorem witness_mode_switch_laws :
    (start 0x00 []).e = true ∧ (run1 (.rep 0xFF) (start 0x00 [])).isSome = true ∧
      (run1 (.sep 0x10) (start 0x00 [])).map (fun t => t.flag .x) = some true ∧
      ({ start 0x00 [] with e := false } : State).e = false := by decide

/-- Both immediate families after a width switch. -/
theorem witness_width_change :
    (start 0x30 [0xC2, 0x20, 0x69, 0x34, 0x12]).status = .running ∧ (0xC2 : Byte) ∈ ([0xC2, 0xE2] : List Byte) ∧
      CodeBytes (start 0x30 [0xC2, 0x20, 0x69, 0x34, 0x12]) [0xC2, 0x20, 0x69, 0x34, 0x12] ∧
      CodeBytes (start 0x00 [0xE2, 0x10, 0xE0, 0x05, 0x18]) [0xE2, 0x10, 0xE0, 0x05, 0x18] := by
  refine ⟨rfl, by decide, code_rep_adc, ?_⟩
  unfold CodeBytes
  decide

/-- Each region of the map, at a boundary of it. -/
theorem witness_regions :
    bankMap (0x7FFFFF / 0x10000) (0x7FFFFF % 0x10000) = .ram 0x1FFFF ∧
      bankMap (0x001FFF / 0x10000) (0x001FFF % 0x10000) = .ram 0x1FFF ∧
      bankMap (0xFFFFFF / 0x10000) (0xFFFFFF % 0x10000) = .rom 0x7FFFF ∧
      bankMap (0x002000 / 0x10000) (0x002000 % 0x10000) = .reserved .hardwareRegisters ∧
      bankMap (0xBF4FFF / 0x10000) (0xBF4FFF % 0x10000) = .reserved .reservedIO ∧
      bankMap (0xF07FFF / 0x10000) (0xF07FFF % 0x10000) = .reserved .saveRam ∧
      bankMap (0x003000 / 0x10000) (0x003000 % 0x10000) = .openBus := by decide

/-- The three clauses of the RAM windows, the third with a successful write. -/
theorem witness_ram_windows :
    (0xFFFF < 0x10000) ∧ (0xBF ≤ 0x3F ∨ (0x80 ≤ 0xBF ∧ 0xBF ≤ 0xBF)) ∧ 0x1FFF ≤ 0x1FFF ∧
      (start 0x00 [0xE8]).bus.wf = true ∧ decodeAddress 0x7E0010 = .ram 0x10 ∧ decodeAddress 0xBF0010 = .ram 0x10 ∧
      decodeAddress 0x7F0010 ≠ .ram 0x10 ∧
      (memWrite (start 0x00 [0xE8]) 0x7E0010 0x55).toOption.isSome = true := by decide

/-- The three clauses of read16, the last across the end of the RAM mirror. -/
theorem witness_read16 :
    (start 0x00 [0x34, 0x12]).bus.read 0x7E0000 = .ok 0x34 ∧ (start 0x00 [0x34, 0x12]).bus.read 0x7E0001 = .ok 0x12 ∧
      (start 0x00 []).bus.read 0x003000 = .error (.unmapped 0x003000 .read) ∧
      (start 0x00 []).bus.read 0x001FFF = .ok 0x00 ∧
      (start 0x00 []).bus.read (0x001FFF + 1) = .error (.reserved 0x002000 .read .hardwareRegisters) := by decide

theorem witness_canonical_memories :
    Memory.wf 0x20000 [(0x1FFFF, 0x01)] = true ∧ ∀ i, Memory.read [(0x1FFFF, 0x01)] i = Memory.read [(0x1FFFF, 0x01)] i :=
  ⟨by decide, fun _ => rfl⟩

/-- An accepted image and a rejected one. -/
theorem witness_loader :
    ∃ (hash : List Byte → Nat) (digest : Nat) (bytes : List Byte),
      bytes.length = 524288 ∧ hash bytes = digest ∧ ¬([] : List Byte).length = 524288 :=
  ⟨fun _ => 0, 0, List.replicate 524288 0x00, List.length_replicate, rfl, by decide⟩

theorem witness_reach_inv :
    ReachInv [] [(0, 0xE8)] (State.construct [] [(0, 0xE8)]) ∧ ∃ t, step (State.construct [] [(0, 0xE8)]) = .next t :=
  ⟨⟨rfl, rfl, rfl, rfl, rfl, rfl, rfl⟩, _, rfl⟩

theorem witness_run_from_construction :
    ∃ t, Host.Core.run Sys2Proof.core 1 (State.construct [] [(0, 0xE8)]) = .next t := ⟨_, rfl⟩

theorem witness_emulation_narrow :
    ∃ s t : State, s.e = true ∧ step s = .next t ∧ s.flag .m = true ∧ s.flag .x = true :=
  ⟨start 0x30 [0xC2, 0x30], _, by decide, rfl, by decide, by decide⟩

end Sys2Proof.Tests
end

/-! ### What a step keeps, and invariants along a run -/

namespace Sys2Proof.Machine

/-- A step that completes leaves SP, D, DBR, E, the bus and the run status alone (spec/10_state.md R23, R24, R37, R40;
spec/20_memory.md R60). -/
theorem step_keeps {s t : State} (h : step s = .next t) :
    t.sp = s.sp ∧ t.d = s.d ∧ t.dbr = s.dbr ∧ t.e = s.e ∧ t.bus = s.bus ∧ t.status = s.status := by
  obtain ⟨-, i, s', hfetch, hexec⟩ := step_next h
  obtain ⟨hsp, hd, hdbr, he, hbus, hstatus⟩ := exec_keeps hexec
  obtain ⟨hsp', hd', hdbr', he', hbus', hstatus'⟩ := fetchInstr_keeps hfetch
  exact ⟨hsp.trans hsp', hd.trans hd', hdbr.trans hdbr', he.trans he', hbus.trans hbus', hstatus.trans hstatus'⟩

/-- A run of `n + 1` steps that completes is a step that completes and a run of `n` from there. -/
theorem run_succ_next {M : Host.Core} {n : Nat} {s t : M.State} (h : M.run (n + 1) s = .next t) :
    ∃ u, M.step s = .next u ∧ M.run n u = .next t := by
  rw [Host.Core.run] at h
  split at h
  · exact ⟨_, ‹_›, h⟩
  · cases h
  · cases h

/-- What every step keeps, every run keeps. -/
theorem run_invariant {M : Host.Core} {P : M.State → Prop} (hstep : ∀ s t, P s → M.step s = .next t → P t) {n : Nat}
    {s t : M.State} (hs : P s) (h : M.run n s = .next t) : P t := by
  induction n generalizing s with
  | zero => cases h; exact hs
  | succ n ih =>
    obtain ⟨u, hu, hrest⟩ := run_succ_next h
    exact ih (hstep s u hs hu) hrest

/-- A successful write to memory leaves the ROM image as it is (spec/20_memory.md R56). -/
theorem memWrite_rom {s t : State} {addr : Addr} {v : Byte} (h : memWrite s addr v = .ok t) :
    t.bus.rom = s.bus.rom := by
  obtain ⟨b, hb, rfl⟩ := memWrite_ok h
  obtain ⟨i, -, rfl⟩ | ⟨-, rfl⟩ := Bus.write_ok hb <;> rfl

/-- Settles O44: a step keeps the whole bus, and a bus write keeps the canonical form and ROM. -/
theorem canonicalMemoryIsKept : Obligations.CanonicalMemoryIsKept := by
  refine ⟨fun s t hwf hstep => ?_, fun s t addr v hwf hwrite => ⟨memWrite_wf hwf hwrite, memWrite_rom hwrite⟩⟩
  obtain ⟨-, -, -, -, hbus, -⟩ := step_keeps hstep
  rwa [hbus]

/-- The invariant of spec/10_state.md R45 speaks only of what a step keeps. -/
theorem ReachInv.step {romImage ramInit : Memory} {s t : State} (hinv : ReachInv romImage ramInit s)
    (hstep : step s = .next t) : ReachInv romImage ramInit t := by
  obtain ⟨hsp, hd, hdbr, he, hbus, hstatus⟩ := step_keeps hstep
  exact {
    emulation := he.trans hinv.emulation
    stackPointer := hsp.trans hinv.stackPointer
    directPage := hd.trans hinv.directPage
    dataBank := hdbr.trans hinv.dataBank
    rom := (congrArg Bus.rom hbus).trans hinv.rom
    ram := (congrArg Bus.ram hbus).trans hinv.ram
    running := hstatus.trans hinv.running }

/-- Settles O49, field by field from what construction leaves in the state. -/
theorem reachInvariantHoldsAtConstruction : Obligations.ReachInvariantHoldsAtConstruction := fun image ram => {
  emulation := State.construct_e image ram
  stackPointer := State.construct_sp image ram
  directPage := State.construct_d image ram
  dataBank := State.construct_dbr image ram
  rom := congrArg Bus.rom (State.construct_bus image ram)
  ram := congrArg Bus.ram (State.construct_bus image ram)
  running := State.construct_status image ram }

/-- Settles O48: a step keeps the invariant, so by induction on the length every run from construction has it. -/
theorem reachInvariantIsKeptByEveryStep : Obligations.ReachInvariantIsKeptByEveryStep :=
  ⟨fun _ _ _ _ => ReachInv.step,
    fun image ram _ _ => run_invariant (fun _ _ => ReachInv.step) (reachInvariantHoldsAtConstruction image ram)⟩

end Sys2Proof.Machine

/-! ### Faulted states -/

namespace Sys2Proof.Machine

/-- A fault is recorded in the state at the start of the step (spec/60_exceptions.md R150). -/
theorem advance_of_fault {s : State} {f : Fault} (h : step s = .fault f) : advance s = recordFault s f := by
  rw [advance, h]

/-- A faulted state stays as it is. -/
theorem advance_of_faulted {s : State} {f : Fault} (h : s.status = .faulted f) : advance s = s := by
  rw [advance, step_faulted h]

/-- A faulted state stays as it is for any number of advances. -/
theorem advanceN_of_faulted {s : State} {f : Fault} (h : s.status = .faulted f) (n : Nat) : advanceN n s = s := by
  induction n with
  | zero => rfl
  | succ n ih => rw [advanceN, advance_of_faulted h, ih]

/-- Settles O10: the first advance records the fault, and every later one meets a faulted state. -/
theorem faultedStateIsTerminal : Obligations.FaultedStateIsTerminal := by
  refine ⟨State.construct_status, fun s f hfault n => ?_, fun s t f hs hnext => ?_⟩
  · rw [advanceN, advance_of_fault hfault]
    exact advanceN_of_faulted (State.withStatus_status s _) n
  · rw [step_faulted hs] at hnext
    cases hnext

end Sys2Proof.Machine

/-! ### What one instruction can do -/

namespace Sys2Proof.Machine

/-- The opcode bytes of the eight branches and the two jumps (spec/30_encoding.md R71). -/
def transferOpcodes : List Byte := [0x10, 0x30, 0x90, 0xB0, 0xD0, 0xF0, 0x80, 0x82, 0x4C, 0x5C]

/-- The instructions that write A (spec/10_state.md R21). -/
def WritesA (i : Instr) : Prop := (∃ v, i = .adcImm v) ∨ (∃ v, i = .sbcImm v) ∨ i = .incA ∨ i = .decA

/-- How an instruction that completes can change the state: by kind, the fields it writes and which instructions are of
that kind. PS keeps every flag that the instruction does not list as written; a register is written by `merge`. -/
inductive Effect (i : Instr) (s : State) : State → Prop where
  | branch (pc : Word) (hi : ∀ c, ∃ op ∈ transferOpcodes, (encode c i).head? = some op) : Effect i s (s.withPc pc)
  | jumpLong (target : Addr) (hi : i = .jmlLong target) :
    Effect i s ((s.withPc (offsetWord target)).withK (bankByte target))
  | flags (ps : Byte) (hps : SameFlagsBut (flagsWritten i) s (s.withPs ps)) : Effect i s (s.withPs ps)
  | writeA (v : Nat) (ps : Byte) (hi : WritesA i) (hps : SameFlagsBut (flagsWritten i) s (s.withPs ps)) :
    Effect i s ((s.withA (merge s.a s.wA v)).withPs ps)
  | writeX (v : Nat) (ps : Byte) (hi : i = .inx ∨ i = .dex) (hps : SameFlagsBut (flagsWritten i) s (s.withPs ps)) :
    Effect i s ((s.withX (merge s.x s.wXY v)).withPs ps)
  | writeY (v : Nat) (ps : Byte) (hi : i = .iny ∨ i = .dey) (hps : SameFlagsBut (flagsWritten i) s (s.withPs ps)) :
    Effect i s ((s.withY (merge s.y s.wXY v)).withPs ps)
  | sep (mask : Byte) (x y : Word) (hi : i = .sep mask) : Effect i s (((s.withPs (s.ps ||| mask)).withX x).withY y)

/-- setZN changes Z and N alone (spec/00_scope.md R16). -/
theorem sameFlagsBut_putZN {written : List Flag} (s : State) (w : Width) (v : Nat) (hZ : .Z ∈ written)
    (hN : .N ∈ written) : SameFlagsBut written s (s.withPs (putZN s.ps w v)) := by
  intro f hf
  have hfZ : f ≠ .Z := fun h => hf (h ▸ hZ)
  have hfN : f ≠ .N := fun h => hf (h ▸ hN)
  simp [State.flag_eq, hfZ, hfN]

/-- One flag written: the others are as before (R36). -/
theorem sameFlagsBut_putFlag (s : State) (f : Flag) (b : Bool) :
    SameFlagsBut [f] s (s.withPs (putFlag s.ps f b)) := by
  intro g hg
  have hgf : g ≠ f := by simpa using hg
  simp [State.flag_eq, hgf]

/-- Compare changes C, Z and N alone (spec/41_compare.md R105). -/
theorem sameFlagsBut_compare (s : State) (reg op : Nat) (w : Width) :
    SameFlagsBut [.C, .Z, .N] s (s.compare reg op w) := by
  intro f hf
  simp only [List.mem_cons, List.not_mem_nil, or_false, not_or] at hf
  simp [hf]

/-- ADC and SBC change C, Z, V and N alone (spec/40_arithmetic.md R90, R91). -/
theorem sameFlagsBut_storeAlu (s : State) (w : Width) (res : AluResult) :
    SameFlagsBut [.C, .Z, .V, .N] s (s.storeAlu w res) := by
  intro f hf
  simp only [List.mem_cons, List.not_mem_nil, or_false, not_or] at hf
  simp [hf]

/-- Every flag is one that REP and SEP may write. -/
theorem mem_flagsWritten_rep (mask : Byte) (f : Flag) : f ∈ flagsWritten (.rep mask) := by
  cases f <;> simp [flagsWritten]

theorem mem_flagsWritten_sep (mask : Byte) (f : Flag) : f ∈ flagsWritten (.sep mask) :=
  mem_flagsWritten_rep mask f

/-- A conditional branch writes PC alone, taken or not. -/
theorem effect_branchIf {i : Instr} (s : State) (taken : Bool) (disp : Byte)
    (hi : ∀ c, ∃ op ∈ transferOpcodes, (encode c i).head? = some op) : Effect i s (s.branchIf taken disp) := by
  rw [State.branchIf_eq]
  exact .branch _ hi

/-- REP writes PS alone, in emulation mode and out of it (spec/44_flag_control.md R137). -/
theorem exec_rep (mask : Byte) (s : State) :
    exec (.rep mask) s = .next (s.withPs
      (if s.e then putFlag (putFlag (s.ps &&& ~~~mask) .x true) .m true else s.ps &&& ~~~mask)) := by
  cases he : s.e <;> simp only [exec, execRep, State.withPs_e, he] <;> rfl

/-- SEP writes PS, X and Y (spec/44_flag_control.md R138). -/
theorem exec_sep (mask : Byte) (s : State) :
    exec (.sep mask) s = .next (((s.withPs (s.ps ||| mask)).withX
      (if getFlag (s.ps ||| mask) .x then truncateIndex s.x else s.x)).withY
      (if getFlag (s.ps ||| mask) .x then truncateIndex s.y else s.y)) := by
  cases hx : getFlag (s.ps ||| mask) .x <;> simp only [exec, execSep, State.flag_withPs, hx] <;> rfl

/-- Every instruction that completes has one of these effects. -/
theorem exec_effect {i : Instr} {s t : State} (h : exec i s = .next t) : Effect i s t := by
  cases i with
  | adcImm _ => cases h; exact .writeA _ _ (.inl ⟨_, rfl⟩) (sameFlagsBut_storeAlu s _ _)
  | sbcImm _ => cases h; exact .writeA _ _ (.inr (.inl ⟨_, rfl⟩)) (sameFlagsBut_storeAlu s _ _)
  | incA => cases h; exact .writeA _ _ (.inr (.inr (.inl rfl))) (sameFlagsBut_putZN s _ _ (by decide) (by decide))
  | decA => cases h; exact .writeA _ _ (.inr (.inr (.inr rfl))) (sameFlagsBut_putZN s _ _ (by decide) (by decide))
  | inx => cases h; exact .writeX _ _ (.inl rfl) (sameFlagsBut_putZN s _ _ (by decide) (by decide))
  | dex => cases h; exact .writeX _ _ (.inr rfl) (sameFlagsBut_putZN s _ _ (by decide) (by decide))
  | iny => cases h; exact .writeY _ _ (.inl rfl) (sameFlagsBut_putZN s _ _ (by decide) (by decide))
  | dey => cases h; exact .writeY _ _ (.inr rfl) (sameFlagsBut_putZN s _ _ (by decide) (by decide))
  | cmpImm _ | cpxImm _ | cpyImm _ => cases h; exact .flags _ (sameFlagsBut_compare s _ _ _)
  | clc | sec | cld | sed | cli | sei | clv => cases h; exact .flags _ (sameFlagsBut_putFlag s _ _)
  | bpl _ | bmi _ | bcc _ | bcs _ | bne _ | beq _ =>
    cases h
    exact effect_branchIf s _ _ fun _ => ⟨_, by decide, rfl⟩
  | bra _ | brl _ | jmpAbs _ => cases h; exact .branch _ fun _ => ⟨_, by decide, rfl⟩
  | jmlLong target => cases h; exact .jumpLong target rfl
  | rep mask =>
    rw [exec_rep] at h
    cases h
    exact .flags _ fun f hf => absurd (mem_flagsWritten_rep mask f) hf
  | sep mask =>
    rw [exec_sep] at h
    cases h
    exact .sep mask _ _ rfl
  | unimplemented _ => cases h

/-! ### Flags and registers change only by their writers -/

/-- An effect keeps every flag that the instruction does not list as written. -/
theorem Effect.sameFlagsBut {i : Instr} {s t : State} (h : Effect i s t) : SameFlagsBut (flagsWritten i) s t := by
  cases h with
  | branch => exact fun _ _ => rfl
  | jumpLong => exact fun _ _ => rfl
  | flags _ hps => exact hps
  | writeA _ _ _ hps => exact hps
  | writeX _ _ _ hps => exact hps
  | writeY _ _ _ hps => exact hps
  | sep mask _ _ hi =>
    subst hi
    exact fun f hf => absurd (mem_flagsWritten_sep mask f) hf

/-- Settles O14: what is not listed as written is kept. -/
theorem flagsChangeOnlyByTheirWriters : Obligations.FlagsChangeOnlyByTheirWriters :=
  fun _ _ _ f hexec hne => by_contra fun hf => hne ((exec_effect hexec).sameFlagsBut f hf)

/-- A after an effect: as before, or merged by one of its writers. -/
theorem Effect.a_cases {i : Instr} {s t : State} (h : Effect i s t) :
    t.a = s.a ∨ WritesA i ∧ ∃ v, t.a = merge s.a s.wA v := by
  cases h with
  | writeA v _ hi => exact .inr ⟨hi, v, rfl⟩
  | branch | jumpLong | flags | writeX | writeY | sep => exact .inl rfl

/-- X after an effect: as before, merged by INX or DEX, or written by SEP. -/
theorem Effect.x_cases {i : Instr} {s t : State} (h : Effect i s t) :
    t.x = s.x ∨ (i = .inx ∨ i = .dex) ∧ (∃ v, t.x = merge s.x s.wXY v) ∨ ∃ mask, i = .sep mask := by
  cases h with
  | writeX v _ hi => exact .inr (.inl ⟨hi, v, rfl⟩)
  | sep mask _ _ hi => exact .inr (.inr ⟨mask, hi⟩)
  | branch | jumpLong | flags | writeA | writeY => exact .inl rfl

/-- Y after an effect: as before, merged by INY or DEY, or written by SEP. -/
theorem Effect.y_cases {i : Instr} {s t : State} (h : Effect i s t) :
    t.y = s.y ∨ (i = .iny ∨ i = .dey) ∧ (∃ v, t.y = merge s.y s.wXY v) ∨ ∃ mask, i = .sep mask := by
  cases h with
  | writeY v _ hi => exact .inr (.inl ⟨hi, v, rfl⟩)
  | sep mask _ _ hi => exact .inr (.inr ⟨mask, hi⟩)
  | branch | jumpLong | flags | writeA | writeX => exact .inl rfl

/-- Settles O15, register by register. -/
theorem registersChangeOnlyByTheirWriters : Obligations.RegistersChangeOnlyByTheirWriters := by
  intro i s t hexec
  have heff := exec_effect hexec
  refine ⟨fun ha => ?_, fun hx => ?_, fun hy => ?_⟩
  · exact (heff.a_cases.resolve_left ha).1
  · obtain ⟨hi | hi, -⟩ | hsep := heff.x_cases.resolve_left hx
    · exact .inl hi
    · exact .inr (.inl hi)
    · exact .inr (.inr hsep)
  · obtain ⟨hi | hi, -⟩ | hsep := heff.y_cases.resolve_left hy
    · exact .inl hi
    · exact .inr (.inl hi)
    · exact .inr (.inr hsep)

/-! ### Hidden bytes (spec/10_state.md R26) -/

/-- Merging at 8-bit width keeps the hidden byte. -/
theorem highByte_merge_ofFlag {r : Word} {v : Nat} {narrow : Bool} (h : narrow = true) :
    highByte (merge r (Width.ofFlag narrow) v) = highByte r := by
  rw [Width.ofFlag_eq_w8.2 h, highByte_merge_w8]

/-- No writer of A writes m. -/
theorem WritesA.m_not_written {i : Instr} (h : WritesA i) : .m ∉ flagsWritten i := by
  obtain ⟨v, rfl⟩ | ⟨v, rfl⟩ | rfl | rfl := h <;> simp [flagsWritten]

/-- An index register, unless SEP writes it: at 8-bit width it keeps its hidden byte, and it keeps its value where x
changes, since no instruction that merges into it writes x. -/
theorem hidden_index_persists {i : Instr} {s t : State} {before after : Word} {merging : Prop} (heff : Effect i s t)
    (hcases : after = before ∨ merging ∧ (∃ v, after = merge before s.wXY v) ∨ ∃ mask, i = .sep mask)
    (hx : merging → .x ∉ flagsWritten i) (hsep : ∀ mask, i ≠ .sep mask) :
    (s.flag .x = true → highByte after = highByte before) ∧ (t.flag .x ≠ s.flag .x → after = before) := by
  obtain h | ⟨hmerging, v, h⟩ | ⟨mask, h⟩ := hcases
  · exact ⟨fun _ => congrArg highByte h, fun _ => h⟩
  · exact ⟨fun hnarrow => h ▸ highByte_merge_ofFlag hnarrow,
      fun hne => absurd (heff.sameFlagsBut .x (hx hmerging)) hne⟩
  · exact absurd h (hsep mask)

/-- Settles O20, from the registers' writers: each merges at the register's width and writes no width flag. -/
theorem hiddenBytesPersist : Obligations.HiddenBytesPersist := by
  intro i s t hexec
  have heff := exec_effect hexec
  have hX := hidden_index_persists heff heff.x_cases (by rintro (rfl | rfl) <;> decide)
  have hY := hidden_index_persists heff heff.y_cases (by rintro (rfl | rfl) <;> decide)
  refine ⟨fun hm => ?_, fun hx hsep => ⟨(hX hsep).1 hx, (hY hsep).1 hx⟩, fun hm => ?_,
    fun hx hsep => ⟨(hX hsep).2 hx, (hY hsep).2 hx⟩⟩
  · obtain h | ⟨-, v, h⟩ := heff.a_cases
    · exact congrArg highByte h
    · exact h ▸ highByte_merge_ofFlag hm
  · exact heff.a_cases.resolve_right fun ⟨hi, _⟩ => hm (heff.sameFlagsBut .m hi.m_not_written)

end Sys2Proof.Machine

/-! ### A straight-line step -/

namespace Sys2Proof

/-- The instruction that an opcode byte selects is encoded with that byte first (spec/30_encoding.md R71, R78). -/
theorem head_encode_instrOf (c : Widths) (opcode : Byte) (operands : List Byte) :
    (encode c (instrOf c opcode operands)).head? = some opcode := by
  rw [instrOf]
  by_cases hmem : opcode ∈ admittedOpcodes
  · obtain ⟨form, hrow⟩ := row_of_admitted hmem
    rw [formOf_of_mem hrow]
    simp only [opcodeRows, List.mem_append, List.mem_cons, List.not_mem_nil, or_false, Prod.mk.injEq] at hrow
    rcases hrow with ((((h | h | h | h | h) | (h | h | h | h | h | h | h | h)) | (h | h | h | h | h | h)) |
        (h | h | h | h | h | h | h | h | h)) | (h | h) <;>
      obtain ⟨rfl, rfl⟩ := h <;> rfl
  · rw [formOf_default hmem]
    rfl

end Sys2Proof

namespace Sys2Proof.Machine

/-- An instruction whose opcode is no branch or jump leaves PC and K alone. -/
theorem Effect.samePlace {i : Instr} {s t : State} {c : Widths} {op : Byte} (h : Effect i s t)
    (hop : (encode c i).head? = some op) (hstraight : op ∉ transferOpcodes) : SamePlace s t := by
  cases h with
  | branch _ hi =>
    obtain ⟨op', hmem, hop'⟩ := hi c
    exact absurd (Option.some.inj (hop'.symm.trans hop) ▸ hmem) hstraight
  | jumpLong target hi =>
    subst hi
    cases hop
    exact absurd (by decide) hstraight
  | flags | writeA | writeX | writeY | sep => exact ⟨rfl, rfl⟩

/-- A step that completes: the opcode byte at K:PC was read, and the next state is an effect of an instruction with that
opcode on the state with PC past the instruction. -/
theorem step_effect {s t : State} (h : step s = .next t) :
    ∃ op i, memRead s (codeAddress s.k s.pc) = .ok op ∧ (encode (widthsOf s.ps) i).head? = some op ∧
      Effect i (s.withPc (s.pc + BitVec.ofNat 16 (1 + operandCount (widthsOf s.ps) op))) t := by
  obtain ⟨-, i, s', hfetch, hexec⟩ := step_next h
  obtain ⟨op, operands, hlen, hread, rfl, rfl⟩ := fetchInstr_ok hfetch
  exact ⟨op, _, hread, head_encode_instrOf _ op operands, hlen ▸ exec_effect hexec⟩

/-- Settles O12: the fetch has moved PC past the instruction, and its effect leaves PC and K there. -/
theorem straightLineStepAdvancesPc : Obligations.StraightLineStepAdvancesPc := by
  intro s t op hread hstraight hstep
  obtain ⟨op', i, hread', hop, heff⟩ := step_effect hstep
  obtain rfl : op = op' := Except.ok.inj (hread.symm.trans hread')
  exact heff.samePlace hop hstraight

end Sys2Proof.Machine

/-! ### Canonical memories -/

namespace Sys2Proof.Machine

/-- A canonical list may be read as one that starts at its first cell. -/
theorem Memory.wfFrom_head {size low j : Nat} {b : Byte} {rest : Memory}
    (h : Memory.wfFrom size low ((j, b) :: rest) = true) : Memory.wfFrom size j ((j, b) :: rest) = true := by
  rw [Memory.wfFrom_cons] at h ⊢
  exact ⟨⟨Nat.le_refl j, h.1.2⟩, h.2⟩

/-- The first listed cell reads as what it lists. -/
theorem Memory.read_head (j : Nat) (b : Byte) (rest : Memory) : Memory.read ((j, b) :: rest) j = b :=
  if_pos rfl

/-- The first cell listed by a canonical memory is where it first reads other than `unlistedByte`: what reads the same
lists no cell before it. -/
theorem Memory.head_le_of_read_eq {size low low' j k : Nat} {b c : Byte} {m n : Memory}
    (hm : Memory.wfFrom size low ((j, b) :: m) = true) (hn : Memory.wfFrom size low' ((k, c) :: n) = true)
    (hread : ∀ i, Memory.read ((j, b) :: m) i = Memory.read ((k, c) :: n) i) : k ≤ j := by
  by_contra hlt
  obtain ⟨⟨-, -, hb⟩, -⟩ := Memory.wfFrom_cons.1 hm
  apply hb
  calc b = Memory.read ((j, b) :: m) j := (Memory.read_head j b m).symm
    _ = Memory.read ((k, c) :: n) j := hread j
    _ = unlistedByte := Memory.read_below (Memory.wfFrom_head hn) (by omega)

/-- Canonical memories with the same first cell that read the same have tails that read the same: up to that cell both
tails list nothing. -/
theorem Memory.read_tail_eq {size j i : Nat} {b : Byte} {m n : Memory} (hm : Memory.wfFrom size (j + 1) m = true)
    (hn : Memory.wfFrom size (j + 1) n = true)
    (hread : Memory.read ((j, b) :: m) i = Memory.read ((j, b) :: n) i) : m.read i = n.read i := by
  by_cases hi : i = j
  · subst hi
    rw [Memory.read_below hm (Nat.lt_succ_self i), Memory.read_below hn (Nat.lt_succ_self i)]
  · simpa [Memory.read, hi] using hread

/-- A canonical memory that lists a cell reads other than `unlistedByte` there. -/
theorem Memory.read_cons_ne_nil {size low j : Nat} {b : Byte} {m : Memory}
    (hm : Memory.wfFrom size low ((j, b) :: m) = true) : Memory.read ((j, b) :: m) j ≠ Memory.read [] j := by
  obtain ⟨⟨-, -, hb⟩, -⟩ := Memory.wfFrom_cons.1 hm
  rwa [Memory.read_head, Memory.read_nil]

/-- Canonical memories that read the same are the same list. -/
theorem Memory.eq_of_read_eq {size low low' : Nat} {m n : Memory} (hm : Memory.wfFrom size low m = true)
    (hn : Memory.wfFrom size low' n = true) (hread : ∀ i, m.read i = n.read i) : m = n := by
  induction m generalizing low low' n with
  | nil =>
    cases n with
    | nil => rfl
    | cons cell n => exact absurd (hread cell.1).symm (Memory.read_cons_ne_nil hn)
  | cons cell m ih =>
    cases n with
    | nil => exact absurd (hread cell.1) (Memory.read_cons_ne_nil hm)
    | cons cell' n =>
      obtain ⟨j, b⟩ := cell
      obtain ⟨k, c⟩ := cell'
      obtain rfl : j = k := Nat.le_antisymm
        (Memory.head_le_of_read_eq hn hm fun i => (hread i).symm) (Memory.head_le_of_read_eq hm hn hread)
      obtain rfl : b = c := by simpa [Memory.read_head] using hread j
      obtain ⟨-, hm'⟩ := Memory.wfFrom_cons.1 hm
      obtain ⟨-, hn'⟩ := Memory.wfFrom_cons.1 hn
      rw [ih hm' hn' fun i => Memory.read_tail_eq hm' hn' (hread i)]

/-- Settles O45: canonical lists are compared cell by cell. -/
theorem canonicalMemoriesThatReadTheSameAreEqual : Obligations.CanonicalMemoriesThatReadTheSameAreEqual :=
  fun _ _ _ hm hn => Memory.eq_of_read_eq hm hn

end Sys2Proof.Machine

/-! ### Construction -/

namespace Sys2Proof.Machine

/-- After construction IRQ disable is the only flag set (spec/70_reset_and_hazards.md R172). -/
theorem State.flag_construct (image ram : Memory) (f : Flag) :
    (State.construct image ram).flag f = decide (f = .I) := by
  rw [State.flag_eq, State.construct_ps]
  cases f <;> decide

/-- Settles O46: the fields are what construction writes, and PC is the ROM word that read16 answers. -/
theorem constructionSetsEveryField : Obligations.ConstructionSetsEveryField := by
  intro image ram
  obtain ⟨hlo, hhi⟩ := decodeAddress_resetVector
  have hvector := Bus.resetVector_eq { ram := ram, rom := image }
  have hflag := State.flag_construct image ram
  have hwA : (State.construct image ram).wA = .w16 := congrArg Width.ofFlag (hflag .m)
  have hwXY : (State.construct image ram).wXY = .w16 := congrArg Width.ofFlag (hflag .x)
  refine ⟨_, rfl, rfl, rfl, rfl, rfl, rfl, rfl, rfl, rfl, rfl, rfl, rfl, rfl, hflag .m, hflag .x, hwA, hwXY,
    hflag .I, hflag .D, hlo, hhi, ?_, ?_⟩
  · rw [State.construct_pc, hvector]
    exact Bus.read16_resetVector _
  · rw [State.construct_pc, hvector, wordOfBytes_toNat]

end Sys2Proof.Machine

/-! ### Noninterference -/

namespace Sys2Proof.Machine

/-- `g` changes nothing that an instruction fetch looks at, and a write of PC is the same before and after it. -/
structure FetchBlind (g : State → State) : Prop where
  bus : ∀ s, (g s).bus = s.bus
  k : ∀ s, (g s).k = s.k
  pc : ∀ s, (g s).pc = s.pc
  widths : ∀ s, widthsOf (g s).ps = widthsOf s.ps
  status : ∀ s, (g s).status = s.status
  withPc : ∀ s v, (g s).withPc v = g (s.withPc v)

theorem FetchBlind.fetch8 {g : State → State} (hg : FetchBlind g) (s : State) :
    fetch8 (g s) = (fetch8 s).map (Prod.map id g) := by
  rw [Machine.fetch8, Machine.fetch8, memRead_congr (hg.bus s), hg.k, hg.pc, hg.withPc]
  cases memRead s (codeAddress s.k s.pc) <;> rfl

theorem FetchBlind.fetchBytes {g : State → State} (hg : FetchBlind g) (n : Nat) (s : State) :
    fetchBytes n (g s) = (fetchBytes n s).map (Prod.map id g) := by
  induction n generalizing s with
  | zero => rfl
  | succ n ih =>
    rw [Machine.fetchBytes, Machine.fetchBytes, hg.fetch8]
    cases Machine.fetch8 s with
    | error f => rfl
    | ok r =>
      simp only [Except.map, Prod.map, id, ih]
      cases Machine.fetchBytes n r.2 <;> rfl

theorem FetchBlind.fetchInstr {g : State → State} (hg : FetchBlind g) (s : State) :
    fetchInstr (g s) = (fetchInstr s).map (Prod.map id g) := by
  rw [Machine.fetchInstr, Machine.fetchInstr, hg.fetch8, hg.widths]
  cases Machine.fetch8 s with
  | error f => rfl
  | ok r =>
    simp only [Except.map, Prod.map, id, hg.fetchBytes]
    cases Machine.fetchBytes (operandCount (widthsOf s.ps) r.1) r.2 <;> rfl

/-- If a fetch does not see `g` and the instruction fetched commutes with it, the step commutes with it. -/
theorem FetchBlind.step {g : State → State} (hg : FetchBlind g) (s : State)
    (hexec : ∀ i s', Machine.fetchInstr s = .ok (i, s') → exec i (g s') = mapState g (exec i s')) :
    step (g s) = mapState g (step s) := by
  cases hs : s.status with
  | faulted f => rw [step_faulted hs, step_faulted ((hg.status s).trans hs), mapState]
  | running =>
    have hgs := (hg.status s).trans hs
    have hfetch := hg.fetchInstr s
    cases hf : Machine.fetchInstr s with
    | error f =>
      rw [hf] at hfetch
      rw [step_fetch_error hs hf, step_fetch_error hgs hfetch, mapState]
    | ok r =>
      rw [hf] at hfetch
      rw [step_fetch_ok hs hf, step_fetch_ok hgs hfetch]
      exact hexec r.1 r.2 hf

/-- SP, D and DBR replaced, everything else kept. -/
def State.withUnused (sp d : Word) (dbr : Byte) (s : State) : State := { s with sp := sp, d := d, dbr := dbr }

theorem fetchBlind_withUnused (sp d : Word) (dbr : Byte) : FetchBlind (State.withUnused sp d dbr) where
  bus _ := rfl
  k _ := rfl
  pc _ := rfl
  widths _ := rfl
  status _ := rfl
  withPc _ _ := rfl

/-- No instruction reads or writes SP, D or DBR (spec/10_state.md R23, R24, R40). The instructions that end in one of
two states are first written as one state with a choice in its fields. -/
theorem exec_withUnused (sp d : Word) (dbr : Byte) (i : Instr) (s : State) :
    exec i (s.withUnused sp d dbr) = mapState (State.withUnused sp d dbr) (exec i s) := by
  cases i
  case bpl | bmi | bcc | bcs | bne | beq =>
    simp only [exec, execBpl, execBmi, execBcc, execBcs, execBne, execBeq, State.branchIf_eq]
    rfl
  case rep => rw [exec_rep, exec_rep]; rfl
  case sep => rw [exec_sep, exec_sep]; rfl
  all_goals rfl

/-- Settles O16: no fetch and no instruction sees the three registers. -/
theorem unusedRegistersNeverMatter : Obligations.UnusedRegistersNeverMatter := by
  refine ⟨fun _ _ => ⟨rfl, rfl, rfl⟩, fun s t hstep => ?_, fun s sp d dbr => ?_⟩
  · obtain ⟨hsp, hd, hdbr, -⟩ := step_keeps hstep
    exact ⟨hsp, hd, hdbr⟩
  · exact (fetchBlind_withUnused sp d dbr).step s fun i s' _ => exec_withUnused sp d dbr i s'

end Sys2Proof.Machine

/-! ### The address decoder -/

namespace Sys2Proof.Machine

@[simp] theorem inRange_iff {lo hi n : Nat} : inRange lo hi n = true ↔ lo ≤ n ∧ n ≤ hi := by
  simp [inRange]

@[simp] theorem isSystemBank_iff {bank : Nat} :
    isSystemBank bank = true ↔ bank ≤ 0x3F ∨ 0x80 ≤ bank ∧ bank ≤ 0xBF := by
  simp [isSystemBank]

@[simp] theorem isSaveRamBank_iff {bank : Nat} :
    isSaveRamBank bank = true ↔ 0x70 ≤ bank ∧ bank ≤ 0x7D ∨ 0xF0 ≤ bank ∧ bank ≤ 0xFF := by
  simp [isSaveRamBank]

@[simp] theorem isRomBank_iff {bank : Nat} :
    isRomBank bank = true ↔ bank ≤ 0x7D ∨ 0x80 ≤ bank ∧ bank ≤ 0xFF := by
  simp [isRomBank]

theorem bankOf_le (addr : Addr) : bankOf addr ≤ 0xFF :=
  Nat.le_of_lt_succ (Nat.div_lt_of_lt_mul addr.isLt)

/-- Bits put above a value of `n` bits are added to it. -/
theorem or_shiftLeft_eq_add {low n : Nat} (high : Nat) (h : low < 2 ^ n) : low ||| high <<< n = high * 2 ^ n + low := by
  rw [Nat.or_comm, ← Nat.shiftLeft_add_eq_or_of_lt h, Nat.shiftLeft_eq]

/-- The RAM index in arithmetic (spec/20_memory.md R54). -/
theorem ramIndex_eq {offset : Nat} (bank : Nat) (h : offset < 0x10000) :
    ramIndex bank offset = (bank % 2) * 0x10000 + offset := by
  rw [ramIndex, Nat.and_one_is_mod]
  exact or_shiftLeft_eq_add (bank % 2) h

/-- The ROM index in the upper half of a bank, in arithmetic (spec/20_memory.md R55). -/
theorem romIndex_upper {offset : Nat} (bank : Nat) (hlow : 0x8000 ≤ offset) (hhigh : offset < 0x10000) :
    romIndex bank offset = (bank % 16) * 0x8000 + (offset - 0x8000) := by
  have hoff : offset &&& 0x7FFF = offset - 0x8000 :=
    (Nat.and_two_pow_sub_one_eq_mod offset 15).trans (by omega)
  have hbank : bank &&& 0xF = bank % 16 := Nat.and_two_pow_sub_one_eq_mod bank 4
  rw [romIndex, hoff, hbank]
  exact or_shiftLeft_eq_add (n := 15) (bank % 16) (by omega)

/-- Banks 0x7E and 0x7F are RAM at every offset: the two halves of the array. -/
theorem decodeRegion_ramBank {bank offset : Nat} (hbank : bank = 0x7E ∨ bank = 0x7F) (hoff : offset < 0x10000) :
    decodeRegion bank offset = bankMap bank offset := by
  obtain rfl | rfl := hbank <;> simp [decodeRegion, bankMap, ramIndex_eq _ hoff]

/-- Every other bank holds ROM in its upper half; its lower half goes by the kind of bank. -/
theorem decodeRegion_otherBank {bank offset : Nat} (hbank : bank ≤ 0x7D ∨ 0x80 ≤ bank ∧ bank ≤ 0xFF)
    (hoff : offset < 0x10000) : decodeRegion bank offset = bankMap bank offset := by
  have hrom := romIndex_upper (offset := offset) bank
  have hkind : (bank ≤ 0x3F ∨ 0x80 ≤ bank ∧ bank ≤ 0xBF) ∨
      (0x40 ≤ bank ∧ bank ≤ 0x6F ∨ 0xC0 ≤ bank ∧ bank ≤ 0xEF) ∨
      (0x70 ≤ bank ∧ bank ≤ 0x7D ∨ 0xF0 ≤ bank ∧ bank ≤ 0xFF) := by omega
  simp only [decodeRegion, bankMap, Bool.and_eq_true, inRange_iff, isSystemBank_iff, isSaveRamBank_iff, isRomBank_iff]
  obtain hsystem | hplain | hsaveRam := hkind
  · -- the RAM mirror, the two device windows and open bus
    grind
  · -- open bus
    grind
  · -- save RAM
    grind

/-- The ordered rule table is the per-bank map (spec/20_memory.md R63). -/
theorem decodeRegion_eq_bankMap {bank offset : Nat} (hbank : bank ≤ 0xFF) (hoff : offset < 0x10000) :
    decodeRegion bank offset = bankMap bank offset := by
  by_cases hram : bank = 0x7E ∨ bank = 0x7F
  · exact decodeRegion_ramBank hram hoff
  · exact decodeRegion_otherBank (by omega) hoff

/-- Settles O40: an address has a bank of 8 bits and an offset of 16. -/
theorem addressDecoderIsTheBankMap : Obligations.AddressDecoderIsTheBankMap :=
  fun addr => decodeRegion_eq_bankMap (bankOf_le addr) (offsetOf_lt addr)

end Sys2Proof.Machine

/-! ### The bus, region by region (spec/20_memory.md R50, R51, R56) -/

namespace Sys2Proof.Machine

section
variable {addr : Addr} {i : Nat}

theorem Bus.read_ram (b : Bus) (h : decodeAddress addr = .ram i) : b.read addr = .ok (b.ram.read i) := by
  rw [Bus.read, h]

theorem Bus.read_rom (b : Bus) (h : decodeAddress addr = .rom i) : b.read addr = .ok (b.rom.read i) := by
  rw [Bus.read, h]

theorem Bus.read_reserved (b : Bus) {r : ReservedRegion} (h : decodeAddress addr = .reserved r) :
    b.read addr = .error (.reserved addr .read r) := by
  rw [Bus.read, h]

theorem Bus.read_openBus (b : Bus) (h : decodeAddress addr = .openBus) :
    b.read addr = .error (.unmapped addr .read) := by
  rw [Bus.read, h]

theorem Bus.write_ram (b : Bus) (v : Byte) (h : decodeAddress addr = .ram i) :
    b.write addr v = .ok { b with ram := b.ram.write i v } := by
  rw [Bus.write, h]

theorem Bus.write_rom (b : Bus) (v : Byte) (h : decodeAddress addr = .rom i) : b.write addr v = .ok b := by
  rw [Bus.write, h]

theorem Bus.write_reserved (b : Bus) (v : Byte) {r : ReservedRegion} (h : decodeAddress addr = .reserved r) :
    b.write addr v = .error (.reserved addr .write r) := by
  rw [Bus.write, h]

theorem Bus.write_openBus (b : Bus) (v : Byte) (h : decodeAddress addr = .openBus) :
    b.write addr v = .error (.unmapped addr .write) := by
  rw [Bus.write, h]

end

/-- Settles O41: the per-bank map names the region that the decoder finds. -/
theorem busAccessFollowsItsRegion : Obligations.BusAccessFollowsItsRegion := by
  intro b addr v
  rw [← addressDecoderIsTheBankMap addr]
  exact ⟨fun _ h => ⟨b.read_ram h, b.write_ram v h⟩, fun _ h => ⟨b.read_rom h, b.write_rom v h⟩,
    fun _ h => ⟨b.read_reserved h, b.write_reserved v h⟩, fun h => ⟨b.read_openBus h, b.write_openBus v h⟩⟩

end Sys2Proof.Machine

/-! ### Reads after a write to RAM (spec/20_memory.md R54) -/

namespace Sys2Proof.Machine

/-- A bus read after one RAM cell was written: the value at every address of that cell, as before at every other. -/
theorem Bus.read_write_cell {b : Bus} (hwf : b.wf = true) (i : Nat) (v : Byte) (addr : Addr) :
    ({ b with ram := b.ram.write i v } : Bus).read addr =
      if decodeAddress addr = .ram i then .ok v else b.read addr := by
  obtain ⟨hram, -⟩ := Bus.wf_iff.1 hwf
  cases h : decodeAddress addr with
  | ram j =>
    rw [Bus.read_ram _ h, Bus.read_ram _ h, Memory.read_write v j hram]
    by_cases hj : j = i <;> simp [hj]
  | rom _ => exact (Bus.read_rom _ h).trans (Bus.read_rom b h).symm
  | reserved _ => exact (Bus.read_reserved _ h).trans (Bus.read_reserved b h).symm
  | openBus => exact (Bus.read_openBus _ h).trans (Bus.read_openBus b h).symm

/-- A memory read after a successful write to an address of cell `i`. -/
theorem memRead_memWrite_ram {s t : State} {addr : Addr} {v : Byte} {i : Nat} (hwf : s.bus.wf = true)
    (haddr : decodeAddress addr = .ram i) (hwrite : memWrite s addr v = .ok t) (other : Addr) :
    memRead t other = if decodeAddress other = .ram i then .ok v else memRead s other := by
  obtain ⟨b, hb, rfl⟩ := memWrite_ok hwrite
  rw [Bus.write_ram _ v haddr] at hb
  cases hb
  rw [memRead, State.withBus_bus, Bus.read_write_cell hwf]
  split <;> rfl

/-- Settles O42: the windows are rows of the per-bank map, and a write through one changes one cell. -/
theorem ramWindowsAliasTheirCells : Obligations.RamWindowsAliasTheirCells := by
  refine ⟨fun offset hoff => ⟨?_, ?_⟩, fun bank offset hbank hoff => ?_,
    fun s t addr other v i hwf haddr hwrite => ⟨fun hother => ?_, fun hother => ?_⟩⟩
  · simp [decodeRegion_eq_bankMap _ hoff, bankMap]
  · simp [decodeRegion_eq_bankMap _ hoff, bankMap]
  · rw [decodeRegion_eq_bankMap (by omega) (by omega), bankMap, if_pos hbank, if_pos hoff]
  · rw [memRead_memWrite_ram hwf haddr hwrite, if_pos hother]
  · rw [memRead_memWrite_ram hwf haddr hwrite, if_neg hother]

end Sys2Proof.Machine

/-! ### Two-byte reads (spec/20_memory.md R57) -/

namespace Sys2Proof.Machine

section
variable {b : Bus} {addr : Addr}

theorem Bus.read16_ok {lo hi : Byte} (hlo : b.read addr = .ok lo) (hhi : b.read (addr + 1) = .ok hi) :
    b.read16 addr = .ok (wordOfBytes lo hi) := by
  simp only [Bus.read16, hlo, hhi]

theorem Bus.read16_low_error {err : BusError} (hlo : b.read addr = .error err) : b.read16 addr = .error err := by
  simp only [Bus.read16, hlo]

theorem Bus.read16_high_error {lo : Byte} {err : BusError} (hlo : b.read addr = .ok lo)
    (hhi : b.read (addr + 1) = .error err) : b.read16 addr = .error err := by
  simp only [Bus.read16, hlo, hhi]

end

/-- Settles O43: the three cases of read16, the value in the first being low plus 256 times high. -/
theorem read16IsTwoReadsLowByteFirst : Obligations.Read16IsTwoReadsLowByteFirst :=
  ⟨fun _ _ => ⟨fun lo hi hlo hhi => ⟨_, Bus.read16_ok hlo hhi, wordOfBytes_toNat lo hi⟩,
    fun _ => Bus.read16_low_error, fun _ _ => Bus.read16_high_error⟩, by decide⟩

end Sys2Proof.Machine

/-! ### The default row (spec/30_encoding.md R74) -/

namespace Sys2Proof.Machine

theorem exec_unimplemented (opcode : Byte) (s : State) :
    exec (.unimplemented opcode) s = .fault (.unimplementedOpcode opcode (codeAddress s.k (s.pc - 1))) := rfl

end Sys2Proof.Machine

/-! ### The decoder and the encoder are inverse (spec/30_encoding.md R71 to R77) -/

namespace Sys2Proof

/-- A list that holds the operand bytes is decoded, and the bytes after them are left. -/
theorem decode_of_le {c : Widths} {opcode : Byte} {tail : List Byte} (h : operandCount c opcode ≤ tail.length) :
    decode c (opcode :: tail) = .ok (instrOf c opcode tail, tail.drop (operandCount c opcode)) :=
  if_neg (Nat.not_lt.2 h)

/-- Operand bytes within a list are not affected by what follows it. -/
theorem operandByte_append {operands : List Byte} {k : Nat} (rest : List Byte) (h : k < operands.length) :
    operandByte (operands ++ rest) k = operandByte operands k :=
  List.getD_append operands rest 0 k h

theorem immediateOf_append {operands : List Byte} {narrow : Bool} (rest : List Byte)
    (h : operands.length = if narrow then 1 else 2) :
    immediateOf narrow (operands ++ rest) = immediateOf narrow operands := by
  cases narrow <;> simp_all [immediateOf, operandByte_append]

/-- A format looks at its operand bytes alone. -/
theorem Form.build_append {c : Widths} {operands : List Byte} (rest : List Byte) (form : Form)
    (h : operands.length = form.operandCount c) : form.build c (operands ++ rest) = form.build c operands := by
  cases form with
  | impl => rfl
  | immM | immX => exact congrArg _ (immediateOf_append rest h)
  | imm8 | rel8 | rel16 | abs | long =>
    rw [Form.operandCount] at h
    simp [Form.build, operandByte_append, h]

theorem instrOf_append {c : Widths} {opcode : Byte} {operands : List Byte} (rest : List Byte)
    (h : operands.length = operandCount c opcode) :
    instrOf c opcode (operands ++ rest) = instrOf c opcode operands :=
  Form.build_append rest (formOf opcode) h

/-- The decoder reads an opcode byte and its operand bytes, whatever bytes follow. -/
theorem decode_append {c : Widths} {opcode : Byte} {operands : List Byte} (rest : List Byte)
    (h : operands.length = operandCount c opcode) :
    decode c (opcode :: (operands ++ rest)) = .ok (instrOf c opcode operands, rest) := by
  rw [decode_of_le (by simp [h]), instrOf_append rest h, ← h, List.drop_left]

/-- Whatever the decoder reads is an opcode byte, exactly its operand bytes, and the bytes left. -/
theorem decode_ok_exact_operands {c : Widths} {bytes rest : List Byte} {i : Instr} (h : decode c bytes = .ok (i, rest)) :
    ∃ opcode operands, operands.length = operandCount c opcode ∧ bytes = opcode :: (operands ++ rest) ∧
      i = instrOf c opcode operands := by
  obtain ⟨opcode, tail, rfl, hle, rfl, rfl⟩ := decode_ok h
  have hsplit := List.take_append_drop (operandCount c opcode) tail
  have hlen : (tail.take (operandCount c opcode)).length = operandCount c opcode := List.length_take_of_le hle
  refine ⟨opcode, _, hlen, by rw [hsplit], ?_⟩
  rw [← instrOf_append (tail.drop (operandCount c opcode)) hlen, hsplit]

theorem immediateBytes_length (narrow : Bool) (imm : Word) :
    (immediateBytes narrow imm).length = if narrow then 1 else 2 := by
  cases narrow <;> rfl

/-- An immediate that fits its width is read back from its bytes. -/
theorem immediateOf_immediateBytes {narrow : Bool} {imm : Word} (h : immediateFits narrow imm = true) :
    immediateOf narrow (immediateBytes narrow imm) = imm := by
  cases narrow with
  | false => exact wordOfBytes_low_high imm
  | true => exact wordOfBytes_low_zero (by simpa [immediateFits] using h)

/-- A well-formed instruction is encoded as an opcode byte and the operand bytes that make the instruction again. -/
theorem encode_eq_opcode_operands {c : Widths} {i : Instr} (h : WellFormed c i = true) :
    ∃ opcode operands, encode c i = opcode :: operands ∧ operands.length = operandCount c opcode ∧
      instrOf c opcode operands = i := by
  cases i with
  | adcImm imm | sbcImm imm | cmpImm imm | cpxImm imm | cpyImm imm =>
    exact ⟨_, _, rfl, immediateBytes_length _ imm, congrArg _ (immediateOf_immediateBytes h)⟩
  | brl v | jmpAbs v => exact ⟨_, _, rfl, rfl, congrArg _ (wordOfBytes_low_high v)⟩
  | jmlLong target => exact ⟨_, _, rfl, rfl, congrArg _ (addrOfBytes_split target)⟩
  | unimplemented opcode =>
    have hform : formOf opcode = .impl (.unimplemented opcode) := formOf_default (by simpa [WellFormed] using h)
    exact ⟨opcode, [], rfl, by rw [operandCount, hform]; rfl, by rw [instrOf, hform]; rfl⟩
  | bpl | bmi | bcc | bcs | bne | beq | bra | rep | sep => exact ⟨_, _, rfl, rfl, rfl⟩
  | inx | iny | dex | dey | incA | decA | clc | sec | cld | sed | cli | sei | clv => exact ⟨_, _, rfl, rfl, rfl⟩

/-- Settles O1: the encoding is an opcode byte with its operand bytes, and these alone are decoded. -/
theorem decodeOfEncodeGivesTheInstruction : Obligations.DecodeOfEncodeGivesTheInstruction := by
  intro c i rest hwf
  obtain ⟨opcode, operands, hbytes, hlen, hi⟩ := encode_eq_opcode_operands hwf
  rw [hbytes, List.cons_append, decode_append rest hlen, hi]

/-- What the encoder makes of the instructions of one row of the opcode table: which operands are well formed, and the
bytes, laid out as the row's format says (R72). -/
def EncodesRow (c : Widths) (opcode : Byte) : Form → Prop
  | .impl i => WellFormed c i = true ∧ encode c i = [opcode]
  | .imm8 mk | .rel8 mk => ∀ b, WellFormed c (mk b) = true ∧ encode c (mk b) = [opcode, b]
  | .immM mk => ∀ imm, WellFormed c (mk imm) = immediateFits c.m8 imm ∧
      encode c (mk imm) = opcode :: immediateBytes c.m8 imm
  | .immX mk => ∀ imm, WellFormed c (mk imm) = immediateFits c.x8 imm ∧
      encode c (mk imm) = opcode :: immediateBytes c.x8 imm
  | .rel16 mk | .abs mk => ∀ v, WellFormed c (mk v) = true ∧ encode c (mk v) = [opcode, lowByte v, highByte v]
  | .long mk => ∀ target, WellFormed c (mk target) = true ∧
      encode c (mk target) =
        [opcode, lowByte (offsetWord target), highByte (offsetWord target), bankByte target]

/-- The encoder follows the opcode table, row by row. -/
theorem encodesRow_of_mem (c : Widths) : ∀ row ∈ opcodeRows, EncodesRow c row.1 row.2 := by
  simp only [opcodeRows, List.forall_mem_append, List.forall_mem_cons]
  simp [EncodesRow, WellFormed, encode]

/-- The encoder follows the row that an opcode byte selects, the default row included. -/
theorem encodesRow_formOf (c : Widths) (opcode : Byte) : EncodesRow c opcode (formOf opcode) := by
  by_cases hmem : opcode ∈ admittedOpcodes
  · obtain ⟨form, hrow⟩ := row_of_admitted hmem
    exact formOf_of_mem hrow ▸ encodesRow_of_mem c _ hrow
  · rw [formOf_default hmem]
    simpa [EncodesRow, WellFormed, encode] using hmem

/-- An immediate made of as many bytes as its width asks for fits that width, and its bytes are these. -/
theorem immediateBytes_immediateOf {narrow : Bool} {operands : List Byte}
    (h : operands.length = if narrow then 1 else 2) :
    immediateFits narrow (immediateOf narrow operands) = true ∧
      immediateBytes narrow (immediateOf narrow operands) = operands := by
  cases narrow with
  | false =>
    obtain ⟨lo, hi, rfl⟩ := List.length_eq_two.1 h
    simp [immediateFits, immediateBytes, immediateOf, operandByte]
  | true =>
    obtain ⟨lo, rfl⟩ := List.length_eq_one_iff.1 h
    simpa [immediateFits, immediateBytes, immediateOf, operandByte, wordOfBytes_toNat] using lo.isLt

/-- What a row's format makes of its operand bytes is well formed and is encoded by those bytes. -/
theorem EncodesRow.encode_build {c : Widths} {opcode : Byte} {form : Form} {operands : List Byte}
    (hrow : EncodesRow c opcode form) (hlen : operands.length = form.operandCount c) :
    WellFormed c (form.build c operands) = true ∧ encode c (form.build c operands) = opcode :: operands := by
  cases form with
  | impl i =>
    obtain rfl := List.length_eq_zero_iff.1 hlen
    exact hrow
  | imm8 mk | rel8 mk =>
    obtain ⟨b, rfl⟩ := List.length_eq_one_iff.1 hlen
    exact hrow b
  | immM mk | immX mk =>
    obtain ⟨hfits, hbytes⟩ := immediateBytes_immediateOf hlen
    obtain ⟨hwf, henc⟩ := hrow (immediateOf _ operands)
    exact ⟨hwf.trans hfits, henc.trans (congrArg _ hbytes)⟩
  | rel16 mk | abs mk =>
    obtain ⟨lo, hi, rfl⟩ := List.length_eq_two.1 hlen
    simpa [Form.build, operandByte] using hrow (wordOfBytes lo hi)
  | long mk =>
    obtain ⟨lo, hi, bank, rfl⟩ := List.length_eq_three.1 hlen
    simpa [Form.build, operandByte] using hrow (addrOfBytes lo hi bank)

/-- Settles O2: the bytes read are an opcode byte and the operand bytes its row asks for. -/
theorem encodeOfDecodeGivesTheBytes : Obligations.EncodeOfDecodeGivesTheBytes := by
  intro c bytes rest i hdecode
  obtain ⟨opcode, operands, hlen, rfl, rfl⟩ := decode_ok_exact_operands hdecode
  obtain ⟨hwf, hbytes⟩ := (encodesRow_formOf c opcode).encode_build hlen
  exact ⟨hwf, congrArg (· ++ rest) hbytes⟩

/-! ### Every opcode byte has one outcome (spec/30_encoding.md R83) -/

/-- No instruction has more than three operand bytes (R70). -/
theorem operandCount_le_three (c : Widths) (opcode : Byte) : operandCount c opcode ≤ 3 := by
  rw [operandCount]
  cases formOf opcode with
  | immM | immX => rw [Form.operandCount]; split <;> decide
  | impl | imm8 | rel8 | rel16 | abs | long => simp [Form.operandCount]

/-- The default row takes no operand (R74). -/
theorem decode_default {opcode : Byte} (c : Widths) (rest : List Byte) (h : opcode ∉ admittedOpcodes) :
    decode c (opcode :: rest) = .ok (.unimplemented opcode, rest) := by
  have hdecode := decode_append (c := c) (opcode := opcode) (operands := []) rest
    (by rw [operandCount, formOf_default h]; rfl)
  rwa [instrOf, formOf_default h] at hdecode

/-- An admitted opcode byte never decodes to the default row. -/
theorem decode_ne_unimplemented {c : Widths} {opcode : Byte} {tail rest : List Byte} {i : Instr}
    (h : opcode ∈ admittedOpcodes) (hdecode : decode c (opcode :: tail) = .ok (i, rest)) (o : Byte) :
    i ≠ .unimplemented o := by
  rintro rfl
  obtain ⟨hwf, hbytes⟩ := encodeOfDecodeGivesTheBytes _ _ _ _ hdecode
  obtain ⟨rfl, -⟩ := List.cons.inj hbytes
  simp [WellFormed, h] at hwf

/-- An immediate opcode followed by three bytes leaves two of them at 8-bit width and one at 16-bit width (R73). -/
theorem decode_immediate {c : Widths} {opcode : Byte} {narrow : Bool} (b1 b2 b3 : Byte)
    (h : operandCount c opcode = if narrow then 1 else 2) :
    ∃ i, decode c [opcode, b1, b2, b3] = .ok (i, if narrow then [b2, b3] else [b3]) := by
  have hdecode := decode_of_le (tail := [b1, b2, b3]) (operandCount_le_three c opcode)
  rw [h] at hdecode
  cases narrow <;> exact ⟨_, hdecode⟩

/-- Settles O3: an admitted byte is never the default row, since its instruction is well formed; every other byte is. -/
theorem everyOpcodeByteHasOneOutcome : Obligations.EveryOpcodeByteHasOneOutcome := by
  refine ⟨rfl, admittedOpcodes_nodup, fun c op b1 b2 b3 hop => ?_, fun c op rest => decode_default c rest,
    fun op s => ⟨_, Machine.exec_unimplemented op s⟩, fun c op b1 b2 b3 hop => ?_, fun c op b1 b2 b3 hop => ?_⟩
  · have hdecode := decode_of_le (tail := [b1, b2, b3]) (operandCount_le_three c op)
    exact ⟨_, _, hdecode, decode_ne_unimplemented hop hdecode⟩
  · apply decode_immediate
    fin_cases hop <;> rfl
  · apply decode_immediate
    fin_cases hop <;> rfl

/-- Settles O4, by running the decoder on each word. -/
theorem sampleWordsDecode : Obligations.SampleWordsDecode := by
  unfold Obligations.SampleWordsDecode
  decide

end Sys2Proof

/-! ### A step is the decoded instruction -/

namespace Sys2Proof.Machine

/-- A stream of bytes is the byte at K:PC and the stream from the next PC on (spec/00_scope.md R13). -/
theorem codeBytes_cons {s : State} {b : Byte} {bytes : List Byte} :
    CodeBytes s (b :: bytes) ↔
      memRead s (codeAddress s.k s.pc) = .ok b ∧ CodeBytes (s.withPc (s.pc + 1)) bytes := by
  constructor
  · intro h
    exact ⟨by simpa using h 0 (Nat.zero_lt_succ _), fun k hk => by
      simpa [pc_shift] using h (k + 1) (Nat.succ_lt_succ hk)⟩
  · rintro ⟨hhead, htail⟩ k hk
    cases k with
    | zero => simpa using hhead
    | succ k => simpa [pc_shift] using htail k (Nat.lt_of_succ_lt_succ hk)

/-- If the stream holds an opcode byte and its operand bytes, the fetch reads the instruction they make. -/
theorem fetchInstr_of_codeBytes {s : State} {opcode : Byte} {operands : List Byte}
    (hlen : operands.length = operandCount (widthsOf s.ps) opcode) (hcode : CodeBytes s (opcode :: operands)) :
    fetchInstr s = .ok (instrOf (widthsOf s.ps) opcode operands,
      s.withPc (s.pc + BitVec.ofNat 16 (opcode :: operands).length)) := by
  obtain ⟨hopcode, hoperands⟩ := codeBytes_cons.1 hcode
  simp only [fetchInstr, fetch8_ok.2 ⟨hopcode, rfl⟩, ← hlen, fetchBytes_of_reads hoperands]
  congr 2
  apply State.ext_fields <;> simp [pc_shift]

/-- Settles O5: the bytes are an opcode byte and exactly its operand bytes, so the fetch reads what they decode to. -/
theorem stepRunsTheDecodedInstruction : Obligations.StepRunsTheDecodedInstruction := by
  intro s bytes i hrunning hdecode hcode
  obtain ⟨opcode, operands, hlen, rfl, rfl⟩ := decode_ok_exact_operands hdecode
  rw [List.append_nil] at hcode ⊢
  exact step_fetch_ok hrunning (fetchInstr_of_codeBytes hlen hcode)

/-- Settles O7: the opcode byte alone decodes to the default row, which finds it one before the PC it is given. -/
theorem unimplementedOpcodeFaultsAtItsAddress : Obligations.UnimplementedOpcodeFaultsAtItsAddress := by
  refine ⟨⟨rfl, admittedOpcodes_nodup⟩, exec_unimplemented, fun op s hrunning hread hop => ?_⟩
  have hcode : CodeBytes s [op] := codeBytes_cons.2 ⟨hread, fun k hk => absurd hk (Nat.not_lt_zero k)⟩
  have hpc : s.pc + 1 - 1 = s.pc := add_sub_cancel_right s.pc 1
  calc step s = exec (.unimplemented op) (s.withPc (s.pc + 1)) :=
        stepRunsTheDecodedInstruction s [op] _ hrunning (decode_default _ [] hop) hcode
    _ = .fault (.unimplementedOpcode op (codeAddress s.k (s.pc + 1 - 1))) := exec_unimplemented op _
    _ = .fault (.unimplementedOpcode op (codeAddress s.k s.pc)) := by rw [hpc]

end Sys2Proof.Machine

/-! ### A flag that an instruction does not read -/

namespace Sys2Proof.Machine

/-- The flags that decide what an instruction does: its carry in, its adder, its width or its branch condition. -/
def flagsRead : Instr → List Flag
  | .adcImm _ | .sbcImm _ => [.C, .D, .m]
  | .cmpImm _ | .incA | .decA => [.m]
  | .cpxImm _ | .cpyImm _ | .inx | .iny | .dex | .dey | .sep _ => [.x]
  | .bpl _ | .bmi _ => [.N]
  | .bcc _ | .bcs _ => [.C]
  | .bne _ | .beq _ => [.Z]
  | .bra _ | .brl _ | .clc | .sec | .cld | .sed | .cli | .sei | .clv | .rep _ | .jmpAbs _ | .jmlLong _
  | .unimplemented _ => []

@[simp] theorem State.flag_branchTo (s : State) (disp : Int) (f : Flag) : (s.branchTo disp).flag f = s.flag f := rfl

/-! PS written twice, or written before a register: the last PS counts. -/

section
variable (s : State) (p q : Byte) (v : Word)

@[simp] theorem State.withPs_withPs : (s.withPs p).withPs q = s.withPs q := rfl
@[simp] theorem State.withA_withPs : (s.withPs p).withA v = (s.withA v).withPs p := rfl
@[simp] theorem State.withX_withPs : (s.withPs p).withX v = (s.withX v).withPs p := rfl
@[simp] theorem State.withY_withPs : (s.withPs p).withY v = (s.withY v).withPs p := rfl

end

/-- Two next states that agree on everything but one flag are the same once that flag is written. -/
theorem mapState_setFlag_congr {s t : State} {g : Flag} (c : Bool) (hfields : s.withPs 0 = t.withPs 0)
    (hflags : ∀ f, f ≠ g → s.flag f = t.flag f) :
    mapState (fun u => u.setFlag g c) (.next s) = mapState (fun u => u.setFlag g c) (.next t) := by
  have hps : putFlag s.ps g c = putFlag t.ps g c := ps_eq_of_flags fun f => by
    rw [getFlag_putFlag, getFlag_putFlag]
    split
    · rfl
    · exact hflags f ‹_›
  refine congrArg Host.Outcome.next ?_
  calc s.setFlag g c = (s.withPs 0).withPs (putFlag s.ps g c) := rfl
    _ = (t.withPs 0).withPs (putFlag t.ps g c) := by rw [hfields, hps]
    _ = t.setFlag g c := rfl

/-- Noninterference: a PS that differs in one flag, which the instruction does not read, changes that flag at most. -/
theorem exec_withPs_of_not_read {i : Instr} {g : Flag} (hg : g ∉ flagsRead i) {s : State} {ps : Byte}
    (hps : ∀ f, f ≠ g → getFlag ps f = s.flag f) (c : Bool) :
    mapState (fun t => t.setFlag g c) (exec i (s.withPs ps)) = mapState (fun t => t.setFlag g c) (exec i s) := by
  have hread : ∀ f ∈ flagsRead i, getFlag ps f = s.flag f := fun f hf => hps f fun h => hg (h ▸ hf)
  cases i
  all_goals
    simp only [flagsRead, List.forall_mem_cons, List.not_mem_nil, false_imp_iff, implies_true, and_true] at hread
  case adcImm | sbcImm | cmpImm | cpxImm | cpyImm =>
    simp only [exec, execAdcImm, execSbcImm, execCmpImm, execCpxImm, execCpyImm, State.wA, State.wXY,
      State.flag_withPs, hread]
    exact mapState_setFlag_congr c (by simp [State.storeAlu, State.compare]) fun f hf => by simp [hps f hf]
  case incA | decA | inx | iny | dex | dey =>
    simp only [exec, execIncA, execDecA, execInx, execIny, execDex, execDey, State.wA, State.wXY,
      State.flag_withPs, hread]
    exact mapState_setFlag_congr c (by simp) fun f hf => by simp [hps f hf, State.flag_eq s]
  case bpl | bmi | bcc | bcs | bne | beq =>
    simp only [exec, execBpl, execBmi, execBcc, execBcs, execBne, execBeq, State.branchIf_eq, State.flag_withPs, hread]
    exact mapState_setFlag_congr c rfl hps
  case bra | brl | jmpAbs | jmlLong => exact mapState_setFlag_congr c rfl hps
  case clc | sec | cld | sed | cli | sei | clv =>
    exact mapState_setFlag_congr c rfl fun f hf => by simp [hps f hf]
  case rep mask =>
    rw [exec_rep, exec_rep]
    refine mapState_setFlag_congr c rfl fun f hf => ?_
    cases he : s.e <;> simp [he, hps f hf, State.flag_eq s]
  case sep mask =>
    simp only [exec_sep, getFlag_or, State.withPs_ps, hread, ← State.flag_eq s]
    exact mapState_setFlag_congr c rfl fun f hf => by simp [hps f hf, State.flag_eq s]
  case unimplemented => rfl

/-- Settles O19: of all instructions only ADC and SBC read D. -/
theorem decimalFlagMattersOnlyToAdcAndSbc : Obligations.DecimalFlagMattersOnlyToAdcAndSbc := by
  intro i s b c hadc hsbc
  have hD : .D ∉ flagsRead i := by
    cases i with
    | adcImm imm => exact absurd rfl (hadc imm)
    | sbcImm imm => exact absurd rfl (hsbc imm)
    | _ => simp [flagsRead]
  exact exec_withPs_of_not_read hD (fun f hf => by rw [getFlag_putFlag, if_neg hf, State.flag_eq]) c

end Sys2Proof.Machine

/-! ### Operand bytes that cannot be read (spec/60_exceptions.md R153, R155) -/

namespace Sys2Proof.Machine

/-- The fault of the first operand byte that cannot be read ends the step, whatever the opcode. -/
theorem operandFetchFaults (op : Byte) : OperandFetchFaults op := by
  intro s f n hrunning hopcode hn hbefore hat
  have hoperands : fetchBytes (operandCount (widthsOf s.ps) op) (s.withPc (s.pc + 1)) = .error f :=
    fetchBytes_error hn (fun k hk => by simpa [pc_shift, Nat.add_comm] using hbefore k hk)
      (by simpa [pc_shift, Nat.add_comm] using hat)
  apply step_fetch_error hrunning
  simp only [fetchInstr, fetch8_ok.2 ⟨hopcode, rfl⟩, hoperands]

end Sys2Proof.Machine

/-! ### ADC and SBC write their adder's result (spec/40_arithmetic.md R90, R91) -/

namespace Sys2Proof.Machine

theorem exec_adcImm (imm : Word) (s : State) :
    exec (.adcImm imm) s =
      .next (s.storeAlu s.wA (addWithCarry (s.flag .D) (low s.a s.wA) (low imm s.wA) (s.flag .C) s.wA)) := rfl

theorem exec_sbcImm (imm : Word) (s : State) :
    exec (.sbcImm imm) s =
      .next (s.storeAlu s.wA (subtractWithBorrow (s.flag .D) (low s.a s.wA) (low imm s.wA) (s.flag .C) s.wA)) := rfl

theorem State.wA_narrow {s : State} (h : s.flag .m = true) : s.wA = .w8 := Width.ofFlag_eq_w8.2 h

theorem State.wA_wide {s : State} (h : s.flag .m = false) : s.wA = .w16 := by rw [State.wA, h]; rfl

/-- The low part of A after storeAlu is a result that fits the width. -/
theorem low_a_storeAlu (s : State) {w : Width} {res : AluResult} (hres : res.r < w.modulus) :
    low (s.storeAlu w res).a w = res.r := low_merge hres

/-- storeAlu of a result that fits the width is the write that ADC and SBC make. -/
theorem writesAluResult_storeAlu (s : State) {w : Width} {res : AluResult} (hres : res.r < w.modulus) :
    WritesAluResult s (s.storeAlu w res) w res := by
  have hhidden : w = .w8 → highByte (s.storeAlu w res).a = highByte s.a := by
    rintro rfl
    exact highByte_merge_w8 s.a res.r
  have hflags : SameFlagsBut [.C, .V, .Z, .N] s (s.storeAlu w res) := fun f hf =>
    sameFlagsBut_storeAlu s w res f (by simpa [and_left_comm] using hf)
  exact ⟨low_a_storeAlu s hres, hhidden, by simp, by simp, ⟨by simp, by simp⟩, hflags, rfl, rfl, ⟨rfl, rfl⟩,
    ⟨rfl, rfl, rfl, rfl, rfl⟩, fun addr => memRead_congr rfl addr⟩

/-- ADC at its width writes the result of the adder that D selects. -/
theorem exec_adcImm_writes (imm : Word) (s : State) {w : Width} (hw : s.wA = w) :
    ∃ t, exec (.adcImm imm) s = .next t ∧
      WritesAluResult s t w (addWithCarry (s.flag .D) (low s.a w) (low imm w) (s.flag .C) w) := by
  subst hw
  exact ⟨_, exec_adcImm imm s, writesAluResult_storeAlu s (addWithCarry_lt _ _ _ _ _)⟩

/-- SBC at its width writes the result of the adder that D selects. -/
theorem exec_sbcImm_writes (imm : Word) (s : State) {w : Width} (hw : s.wA = w) :
    ∃ t, exec (.sbcImm imm) s = .next t ∧
      WritesAluResult s t w (subtractWithBorrow (s.flag .D) (low s.a w) (low imm w) (s.flag .C) w) := by
  subst hw
  exact ⟨_, exec_sbcImm imm s, writesAluResult_storeAlu s (subtractWithBorrow_lt _ _ _ _ _)⟩

/-- An opcode byte with an immediate: one operand byte at 8-bit width, two at 16-bit width (spec/30_encoding.md R72). -/
theorem cons_immediateBytes (op : Byte) (narrow : Bool) (imm : Word) :
    op :: immediateBytes narrow imm = if narrow then [op, lowByte imm] else [op, lowByte imm, highByte imm] := by
  cases narrow <;> rfl

/-- Settles O21: `exec_adcImm_writes` at each width, where the adder that D selects is the one the rule names. -/
theorem adcWritesItsAdderResult : Obligations.AdcWritesItsAdderResult :=
  ⟨fun c imm => cons_immediateBytes 0x69 c.m8 imm, operandFetchFaults 0x69,
    fun imm s hm => exec_adcImm_writes imm s (State.wA_narrow hm),
    fun imm s hm => exec_adcImm_writes imm s (State.wA_wide hm)⟩

/-- Settles O22, as `adcWritesItsAdderResult`. -/
theorem sbcWritesItsAdderResult : Obligations.SbcWritesItsAdderResult :=
  ⟨fun c imm => cons_immediateBytes 0xE9 c.m8 imm, operandFetchFaults 0xE9,
    fun imm s hm => exec_sbcImm_writes imm s (State.wA_narrow hm),
    fun imm s hm => exec_sbcImm_writes imm s (State.wA_wide hm)⟩

end Sys2Proof.Machine

/-! ### The binary adder (spec/40_arithmetic.md R92, R93, R99, R101) -/

namespace Sys2Proof.Machine

/-- The overflow formula in words: equal signs of the operands, the other sign of the sum (R93). -/
theorem overflowBit_iff (w : Width) (a b s : Nat) :
    overflowBit w a b s = true ↔ signBit w a = signBit w b ∧ signBit w a ≠ signBit w s := by
  simp [overflowBit]

/-- The overflow formula at the wrapped sum says that the sum of the two's complement values does not fit the width. -/
theorem overflowBit_sum_iff {w : Width} {a b : Nat} (cin : Bool) (ha : a < w.modulus) (hb : b < w.modulus) :
    overflowBit w a b ((a + b + cin.toNat) % w.modulus) = true ↔
      signedValue w a + signedValue w b + cin.toNat < -((w.modulus / 2 : Nat) : Int) ∨
      ((w.modulus / 2 : Nat) : Int) ≤ signedValue w a + signedValue w b + cin.toNat := by
  have hcin := cin.toNat_le
  rw [overflowBit_iff, signBit_eq ha, signBit_eq hb, signBit_eq (Nat.mod_lt _ w.modulus_pos), Ne, decide_eq_decide,
    decide_eq_decide, signedValue, signedValue]
  cases w <;> simp only [Width.modulus] at * <;> omega

/-- Settles O23: the adder without masks, and V as signed overflow. -/
theorem binaryAdderIsExactModuloTheWidth : Obligations.BinaryAdderIsExactModuloTheWidth := by
  intro w a b cin ha hb
  rw [addBin_eq]
  exact ⟨rfl, decide_eq_true_iff, overflowBit_iff .., overflowBit_sum_iff cin ha hb⟩

theorem overflowBit_comm (w : Width) (a b s : Nat) : overflowBit w a b s = overflowBit w b a s := by
  rw [Bool.eq_iff_iff, overflowBit_iff, overflowBit_iff]
  constructor <;> exact fun ⟨hab, hs⟩ => ⟨hab.symm, hab ▸ hs⟩

/-- Settles O26: each adder adds its operands group by group, and the overflow formula is symmetric in them. -/
theorem addersAreCommutative : Obligations.AddersAreCommutative := by
  intro a b cin
  have hgroup (mask : Nat) : (a &&& mask) + (b &&& mask) = (b &&& mask) + (a &&& mask) := Nat.add_comm _ _
  refine ⟨fun w => ?_, ?_, ?_⟩
  · rw [addBin, addBin, Nat.add_comm a b, overflowBit_comm]
  · simp only [addBcd8, hgroup, overflowBit_comm .w8 a b]
  · simp only [addBcd16, hgroup, overflowBit_comm .w16 a b]

/-- The w-bit complement of a register's low part is the low part of its complement. -/
theorem low_not (r : Word) (w : Width) : low (~~~r) w = w.mask - low r w := by
  have := r.isLt
  cases w <;> simp only [low_w8, low_w16, Width.mask, Width.modulus, BitVec.toNat_not]
  all_goals omega

/-- In binary mode SBC's adder is ADC's on the complement (R99). -/
theorem subtractWithBorrow_binary (a imm : Nat) (cin : Bool) (w : Width) :
    subtractWithBorrow false a imm cin w = addWithCarry false a (w.mask - imm) cin w := rfl

/-- Settles O25: in binary mode both instructions store one adder's result; in decimal mode the rule's own example,
A = 0x10 with m = D = C = 1, tells them apart. -/
theorem sbcIsAdcOfTheComplementInBinaryMode : Obligations.SbcIsAdcOfTheComplementInBinaryMode := by
  refine ⟨fun imm s hD => ?_, (State.reset.withA 0x0010).withPs 0x29, _, _,
    by decide, by decide, by decide, by decide, rfl, by decide, rfl, by decide⟩
  rw [exec_sbcImm, exec_adcImm, hD, subtractWithBorrow_binary, low_not]

end Sys2Proof.Machine

/-! ### BCD numbers, digit by digit (spec/40_arithmetic.md R98) -/

namespace Sys2Proof.Machine

/-- The nibble `k` of a number, as a BCD digit. -/
def digit (k v : Nat) : Nat := v / 16 ^ k % 16

/-- The decimal value of the low `k` digits of a BCD number. -/
def digitsValue : Nat → Nat → Nat
  | 0, _ => 0
  | k + 1, v => digitsValue k v + 10 ^ k * digit k v

/-- A number with its low `k` decimal digits written as nibbles and the rest of it above them: every ten of a digit is
carried on as sixteen. -/
def digitsSpelling : Nat → Nat → Nat
  | 0, n => n
  | k + 1, n => digitsSpelling k n + 6 * 16 ^ k * (n / 10 ^ (k + 1))

/-- w/4, the digits of a width-w BCD number. -/
def Width.digits : Width → Nat
  | .w8 => 2
  | .w16 => 4

theorem Width.modulus_eq (w : Width) : w.modulus = 16 ^ w.digits := by cases w <;> rfl

theorem Width.decimalModulus_eq (w : Width) : w.decimalModulus = 10 ^ w.digits := by cases w <;> rfl

theorem IsBcd.digit_le {v : Nat} (h : IsBcd v) (w : Width) : ∀ k < w.digits, digit k v ≤ 9 := by
  obtain ⟨h0, h1, h2, h3⟩ := h
  have hdigits : ∀ k < 4, digit k v ≤ 9 := by
    intro k hk
    interval_cases k
    exacts [by simpa [digit] using h0, h1, h2, h3]
  exact fun k hk => hdigits k (hk.trans_le (by cases w <;> decide))

theorem bcdValue_eq {w : Width} {v : Nat} (h : v < w.modulus) : bcdValue v = digitsValue w.digits v := by
  cases w <;> simp only [Width.modulus, bcdValue, digitsValue, digit, Width.digits, Nat.reducePow] at h ⊢ <;> omega

theorem bcdSpelling_eq {w : Width} {n : Nat} (h : n < w.decimalModulus) :
    bcdSpelling n = digitsSpelling w.digits n := by
  cases w <;>
    simp only [Width.decimalModulus, bcdSpelling, digitsSpelling, Width.digits, Nat.reduceAdd, Nat.reducePow,
      Nat.reduceMul] at h ⊢ <;>
    omega

theorem digitsValue_lt {k v : Nat} (h : ∀ j < k, digit j v ≤ 9) : digitsValue k v < 10 ^ k := by
  induction k with
  | zero => exact Nat.one_pos
  | succ k ih =>
    have hlow := ih fun j hj => h j (Nat.lt_succ_of_lt hj)
    have hdigit := Nat.mul_le_mul_left (10 ^ k) (h k (Nat.lt_succ_self k))
    rw [digitsValue, Nat.pow_succ]
    omega

/-- What is added above the low digits stays above them. -/
theorem digitsSpelling_add_mul (k n m : Nat) :
    digitsSpelling k (n + 10 ^ k * m) = digitsSpelling k n + 16 ^ k * m := by
  induction k generalizing m with
  | zero => simp [digitsSpelling]
  | succ k ih =>
    have hlow : n + 10 ^ (k + 1) * m = n + 10 ^ k * (10 * m) := by ring
    rw [digitsSpelling, digitsSpelling, Nat.add_mul_div_left _ _ (by positivity), hlow, ih]
    ring

/-- The spelling is that of the low digits, with what is above the digits above the nibbles. -/
theorem digitsSpelling_split (k n : Nat) :
    digitsSpelling k n = digitsSpelling k (n % 10 ^ k) + 16 ^ k * (n / 10 ^ k) := by
  rw [← digitsSpelling_add_mul, Nat.mod_add_div]

theorem digitsSpelling_lt {k n : Nat} (h : n < 10 ^ k) : digitsSpelling k n < 16 ^ k := by
  induction k generalizing n with
  | zero => exact h
  | succ k ih =>
    have hlow := ih (Nat.mod_lt n (Nat.pow_pos (n := k) (Nat.succ_pos 9)))
    have hdigit := Nat.mul_le_mul_left (16 ^ k) (show n / 10 ^ k ≤ 9 from Nat.le_of_lt_succ (Nat.div_lt_of_lt_mul h))
    rw [digitsSpelling, Nat.div_eq_of_lt h, digitsSpelling_split, Nat.pow_succ]
    omega

theorem digitsSpelling_mod_lt (k n : Nat) : digitsSpelling k (n % 10 ^ k) < 16 ^ k :=
  digitsSpelling_lt (Nat.mod_lt n (by positivity))

theorem digitsSpelling_div (k n : Nat) : digitsSpelling k n / 16 ^ k = n / 10 ^ k := by
  rw [digitsSpelling_split, Nat.add_mul_div_left _ _ (by positivity),
    Nat.div_eq_of_lt (digitsSpelling_mod_lt k n), Nat.zero_add]

theorem digitsSpelling_mod (k n : Nat) : digitsSpelling k n % 16 ^ k = digitsSpelling k (n % 10 ^ k) := by
  rw [digitsSpelling_split, Nat.add_mul_mod_self_left, Nat.mod_eq_of_lt (digitsSpelling_mod_lt k n)]

/-! ### One digit group (R94 to R97) -/

/-- Digit group `k` of an addition, on the running value of the groups below: their carry is one bit, and the group is
corrected when it is past 9. -/
def addGroup (k a b below : Nat) : Nat :=
  let s := digit k a * 16 ^ k + digit k b * 16 ^ k + (decide (below > 16 ^ k - 1)).toNat * 16 ^ k + below % 16 ^ k
  if s > 10 * 16 ^ k - 1 then s + 6 * 16 ^ k else s

/-- The running value after the low `k` digit groups of an addition. -/
def addGroups : Nat → Nat → Nat → Nat → Nat
  | 0, _, _, cin => cin
  | k + 1, a, b, cin => addGroup k a b (addGroups k a b cin)

/-- Digit group `k` of a subtraction, `d` the complement: corrected when it has no carry. -/
def subGroup (k a d : Nat) (below : Int) : Int :=
  let s := digit k a * 16 ^ k + digit k d * 16 ^ k + (decide (below > 16 ^ k - 1)).toNat * 16 ^ k +
    (below % 16 ^ k).toNat
  if s ≤ 16 * 16 ^ k - 1 then (s : Int) - 6 * 16 ^ k else s

/-- The running value after the low `k` digit groups of a subtraction. -/
def subGroups : Nat → Nat → Nat → Nat → Int
  | 0, _, _, cin => cin
  | k + 1, a, d, cin => subGroup k a d (subGroups k a d cin)

/-- The decimal adder of ADC is the digit groups of its width (R94, R95). -/
theorem addWithCarry_decimal_groups (a b : Nat) (cin : Bool) (w : Width) :
    (addWithCarry true a b cin w).r = addGroups w.digits a b cin.toNat % w.modulus ∧
      (addWithCarry true a b cin w).c = decide (addGroups w.digits a b cin.toNat > w.mask) := by
  cases w <;> cases cin <;>
    simp [addWithCarry, addBcd8, addBcd16, addGroups, addGroup, digit, and_digit0, and_digit1, and_digit2, and_digit3,
      Nat.shiftLeft_eq, Width.digits, Width.modulus, Width.mask]

/-- The decimal adder of SBC is the digit groups of its width, on the complement (R96, R97). -/
theorem subtractWithBorrow_decimal_groups (a b : Nat) (cin : Bool) (w : Width) :
    (subtractWithBorrow true a b cin w).r = (subGroups w.digits a (w.mask - b) cin.toNat % w.modulus).toNat ∧
      (subtractWithBorrow true a b cin w).c = decide (subGroups w.digits a (w.mask - b) cin.toNat > w.mask) := by
  cases w <;> simp only [subtractWithBorrow, subBcd8, subBcd16, Nat.cast_le_ofNat] <;> cases cin <;>
    simp [subGroups, subGroup, digit, and_digit0, and_digit1, and_digit2, and_digit3,
      Nat.shiftLeft_eq, Width.digits, Width.modulus, Width.mask]

/-- A running value with at most one carry is taken up whole by the next group. -/
theorem carry_add_mod {below base : Nat} (hbase : 0 < base) (h : below / base ≤ 1) :
    (decide (below > base - 1)).toNat * base + below % base = below := by
  have hdiv := Nat.div_add_mod below base
  by_cases hcarry : below > base - 1
  · have : below / base = 1 := Nat.le_antisymm h ((Nat.one_le_div_iff hbase).2 (by omega))
    rw [this, Nat.mul_one] at hdiv
    simpa [hcarry] using hdiv
  · simp [hcarry, Nat.mod_eq_of_lt (show below < base by omega)]

/-- Digit group `k` of an addition of decimal digits, on a value with `k` digits spelled: one more digit is spelled. -/
theorem addGroup_digitsSpelling {k a b n : Nat} (ha : digit k a ≤ 9) (hb : digit k b ≤ 9) (hn : n / 10 ^ k ≤ 1) :
    addGroup k a b (digitsSpelling k n) = digitsSpelling (k + 1) (n + 10 ^ k * (digit k a + digit k b)) := by
  have hbase : 0 < 16 ^ k := by positivity
  have hcarry := carry_add_mod hbase (le_of_eq_of_le (digitsSpelling_div k n) hn)
  have hsum : digit k a * 16 ^ k + digit k b * 16 ^ k + (decide (digitsSpelling k n > 16 ^ k - 1)).toNat * 16 ^ k +
      digitsSpelling k n % 16 ^ k = digitsSpelling k (n + 10 ^ k * (digit k a + digit k b)) := by
    rw [Nat.add_assoc, hcarry, digitsSpelling_add_mul]
    ring
  have hdigit : (n + 10 ^ k * (digit k a + digit k b)) / 10 ^ k ≤ 19 := by
    rw [Nat.add_mul_div_left _ _ (by positivity)]
    omega
  rw [addGroup, hsum, digitsSpelling, Nat.pow_succ, ← Nat.div_div_eq_div_mul]
  rw [← digitsSpelling_div] at hdigit ⊢
  generalize digitsSpelling k (n + 10 ^ k * (digit k a + digit k b)) = s at hdigit ⊢
  split
  next hover =>
    have : 10 ≤ s / 16 ^ k := (Nat.le_div_iff_mul_le hbase).2 (by omega)
    rw [show s / 16 ^ k / 10 = 1 by omega, Nat.mul_one]
  next hfits =>
    have : s / 16 ^ k < 10 := (Nat.div_lt_iff_lt_mul hbase).2 (by omega)
    rw [Nat.div_eq_of_lt this, Nat.mul_zero, Nat.add_zero]

/-- The low `k` groups of an addition of decimal digits spell the low `k` digits of the sum, its carry above them. -/
theorem addGroups_eq {k a b cin : Nat} (ha : ∀ j < k, digit j a ≤ 9) (hb : ∀ j < k, digit j b ≤ 9) (hcin : cin ≤ 1) :
    addGroups k a b cin = digitsSpelling k (digitsValue k a + digitsValue k b + cin) := by
  induction k with
  | zero => simp [addGroups, digitsValue, digitsSpelling]
  | succ k ih =>
    have ha' : ∀ j < k, digit j a ≤ 9 := fun j hj => ha j (Nat.lt_succ_of_lt hj)
    have hb' : ∀ j < k, digit j b ≤ 9 := fun j hj => hb j (Nat.lt_succ_of_lt hj)
    have hcarry : (digitsValue k a + digitsValue k b + cin) / 10 ^ k ≤ 1 := by
      have := digitsValue_lt ha'
      have := digitsValue_lt hb'
      exact Nat.le_of_lt_succ (Nat.div_lt_of_lt_mul (by omega))
    rw [addGroups, ih ha' hb', addGroup_digitsSpelling (ha k k.lt_succ_self) (hb k k.lt_succ_self) hcarry, digitsValue,
      digitsValue]
    congr 1
    ring

/-- Subtraction on a digit 6 above another one is addition of that one: the correction is the same, taken away from the
group without carry and not added to the group with one. -/
theorem subGroup_eq_addGroup {k a b d below : Nat} (hd : digit k d = digit k b + 6) :
    subGroup k a d below = addGroup k a b below := by
  have hbase : 0 < 16 ^ k := by positivity
  have hcarry : (decide ((below : Int) > 16 ^ k - 1)).toNat = (decide (below > 16 ^ k - 1)).toNat := by
    congr 2
    zify [hbase]
  have hmod : ((below : Int) % 16 ^ k).toNat = below % 16 ^ k := by norm_cast
  simp only [subGroup, addGroup, hcarry, hmod, hd, Nat.add_mul]
  split <;> split <;> push_cast <;> omega

theorem subGroups_eq_addGroups {k a b d : Nat} (cin : Nat) (hd : ∀ j < k, digit j d = digit j b + 6) :
    subGroups k a d cin = addGroups k a b cin := by
  induction k with
  | zero => rfl
  | succ k ih =>
    rw [subGroups, ih fun j hj => hd j (Nat.lt_succ_of_lt hj), subGroup_eq_addGroup (hd k k.lt_succ_self), addGroups]

/-! ### The decimal adders on BCD operands (R98) -/

/-- ADC's decimal adder is decimal addition, with the decimal carry. -/
theorem addWithCarry_decimal {w : Width} {a b : Nat} (cin : Bool) (ha : a < w.modulus) (hb : b < w.modulus)
    (ha' : ∀ k < w.digits, digit k a ≤ 9) (hb' : ∀ k < w.digits, digit k b ≤ 9) :
    (addWithCarry true a b cin w).r = bcdSpelling ((bcdValue a + bcdValue b + cin.toNat) % w.decimalModulus) ∧
      ((addWithCarry true a b cin w).c = true ↔ w.decimalModulus ≤ bcdValue a + bcdValue b + cin.toNat) := by
  obtain ⟨hr, hc⟩ := addWithCarry_decimal_groups a b cin w
  have hpos := w.modulus_pos
  have hpos10 : 0 < w.decimalModulus := by cases w <;> decide
  have hgroups := addGroups_eq ha' hb' cin.toNat_le
  rw [← bcdValue_eq ha, ← bcdValue_eq hb] at hgroups
  generalize bcdValue a + bcdValue b + cin.toNat = n at hgroups ⊢
  have hcarry : digitsSpelling w.digits n / w.modulus = n / w.decimalModulus := by
    rw [w.modulus_eq, w.decimalModulus_eq, digitsSpelling_div]
  constructor
  · rw [hr, hgroups, bcdSpelling_eq (Nat.mod_lt _ hpos10), w.modulus_eq, w.decimalModulus_eq, digitsSpelling_mod]
  · have hc' : (addWithCarry true a b cin w).c = true ↔ w.modulus ≤ digitsSpelling w.digits n := by
      rw [hc, hgroups, decide_eq_true_iff, Width.mask]
      omega
    rw [hc', ← Nat.one_le_div_iff hpos, hcarry, Nat.one_le_div_iff hpos10]

/-- 10^(w/4) - 1 in BCD. -/
def Width.nines : Width → Nat
  | .w8 => 0x99
  | .w16 => 0x9999

/-- The nine's complement of a BCD number takes each digit from 9, the two's complement takes it from 15. -/
theorem digit_complements {w : Width} {b : Nat} (hb : b < w.modulus) (hb' : IsBcd b) :
    ∀ k < w.digits, digit k (w.nines - b) = 9 - digit k b ∧ digit k (w.mask - b) = 15 - digit k b := by
  obtain ⟨h0, h1, h2, h3⟩ := hb'
  intro k hk
  cases w with
  | w8 =>
    simp only [Width.modulus, Width.nines, Width.digits, Width.mask] at *
    interval_cases k <;> simp only [digit, Nat.reducePow] <;> omega
  | w16 =>
    simp only [Width.modulus, Width.nines, Width.digits, Width.mask] at *
    interval_cases k <;> simp only [digit, Nat.reducePow] <;> omega

/-- A number and the one with each digit taken from 9 add up to all nines. -/
theorem digitsValue_nines {k b c : Nat} (hb : ∀ j < k, digit j b ≤ 9) (hc : ∀ j < k, digit j c = 9 - digit j b) :
    digitsValue k c + digitsValue k b + 1 = 10 ^ k := by
  induction k with
  | zero => rfl
  | succ k ih =>
    have hlow := ih (fun j hj => hb j (Nat.lt_succ_of_lt hj)) fun j hj => hc j (Nat.lt_succ_of_lt hj)
    have htop : 10 ^ k * digit k c + 10 ^ k * digit k b = 10 ^ k * 9 := by
      rw [← Nat.mul_add, hc k k.lt_succ_self, Nat.sub_add_cancel (hb k k.lt_succ_self)]
    rw [digitsValue, digitsValue, Nat.pow_succ]
    omega

/-- SBC's decimal adder is ADC's on the nine's complement. -/
theorem subtractWithBorrow_decimal_eq {w : Width} (a : Nat) {b : Nat} (cin : Bool) (hb : b < w.modulus)
    (hb' : IsBcd b) :
    (subtractWithBorrow true a b cin w).r = (addWithCarry true a (w.nines - b) cin w).r ∧
      (subtractWithBorrow true a b cin w).c = (addWithCarry true a (w.nines - b) cin w).c := by
  obtain ⟨hr, hc⟩ := subtractWithBorrow_decimal_groups a b cin w
  obtain ⟨hr', hc'⟩ := addWithCarry_decimal_groups a (w.nines - b) cin w
  have hgroups : subGroups w.digits a (w.mask - b) cin.toNat = addGroups w.digits a (w.nines - b) cin.toNat :=
    subGroups_eq_addGroups cin.toNat fun k hk => by
      obtain ⟨hnines, hmask⟩ := digit_complements hb hb' k hk
      have := hb'.digit_le w k hk
      omega
  rw [hr, hc, hr', hc', hgroups]
  exact ⟨by norm_cast, by norm_cast⟩

/-- SBC's decimal adder is decimal subtraction, with the absence of borrow as its carry. -/
theorem subtractWithBorrow_decimal {w : Width} {a b : Nat} (cin : Bool) (ha : a < w.modulus) (hb : b < w.modulus)
    (ha' : IsBcd a) (hb' : IsBcd b) :
    (subtractWithBorrow true a b cin w).r = bcdSpelling
        (((bcdValue a : Int) - bcdValue b - (1 - cin.toNat)) % w.decimalModulus).toNat ∧
      ((subtractWithBorrow true a b cin w).c = true ↔ 0 ≤ (bcdValue a : Int) - bcdValue b - (1 - cin.toNat)) := by
  have hnines : w.nines - b < w.modulus := by
    have : w.nines < w.modulus := by cases w <;> decide
    omega
  have hdigits : ∀ k < w.digits, digit k (w.nines - b) = 9 - digit k b :=
    fun k hk => (digit_complements hb hb' k hk).1
  have hvalue : bcdValue (w.nines - b) + bcdValue b + 1 = w.decimalModulus := by
    rw [bcdValue_eq hnines, bcdValue_eq hb, w.decimalModulus_eq]
    exact digitsValue_nines (hb'.digit_le w) hdigits
  obtain ⟨hr, hc⟩ := subtractWithBorrow_decimal_eq a cin hb hb'
  obtain ⟨hr', hc'⟩ := addWithCarry_decimal cin ha hnines (ha'.digit_le w) fun k hk => by
    rw [hdigits k hk]
    omega
  have hsum : ((bcdValue a + bcdValue (w.nines - b) + cin.toNat : Nat) : Int) =
      (bcdValue a : Int) - bcdValue b - (1 - cin.toNat) + w.decimalModulus := by omega
  rw [hr, hc, hr', hc']
  refine ⟨congrArg bcdSpelling ?_, by omega⟩
  rw [← Int.add_emod_right, ← hsum]
  norm_cast

/-- Settles O24: both instructions store the result of their decimal adder. -/
theorem bcdUnitIsDecimalArithmetic : Obligations.BcdUnitIsDecimalArithmetic := by
  refine ⟨fun imm s hD ha himm => ⟨⟨_, exec_adcImm imm s, ?_⟩, ⟨_, exec_sbcImm imm s, ?_⟩⟩, by decide⟩
  · rw [hD, low_a_storeAlu s (addWithCarry_lt _ _ _ _ _), State.flag_storeAlu]
    exact addWithCarry_decimal _ (low_lt _ _) (low_lt _ _) (ha.digit_le _) (himm.digit_le _)
  · rw [hD, low_a_storeAlu s (subtractWithBorrow_lt _ _ _ _ _), State.flag_storeAlu]
    exact subtractWithBorrow_decimal _ (low_lt _ _) (low_lt _ _) ha himm

end Sys2Proof.Machine

/-! ### Compare (spec/41_compare.md R105 to R108) -/

namespace Sys2Proof.Machine

theorem exec_cmpImm (imm : Word) (s : State) :
    exec (.cmpImm imm) s = .next (s.compare (low s.a s.wA) (low imm s.wA) s.wA) := rfl

theorem exec_cpxImm (imm : Word) (s : State) :
    exec (.cpxImm imm) s = .next (s.compare (low s.x s.wXY) (low imm s.wXY) s.wXY) := rfl

theorem exec_cpyImm (imm : Word) (s : State) :
    exec (.cpyImm imm) s = .next (s.compare (low s.y s.wXY) (low imm s.wXY) s.wXY) := rfl

/-- The wrapping difference without integers: the operand's complement to 2^w is added. -/
theorem wrap_sub {w : Width} {op : Nat} (reg : Nat) (hop : op < w.modulus) :
    wrap w ((reg : Int) - op) = (reg + (w.modulus - op)) % w.modulus := by
  cases w <;> simp only [wrap, Width.modulus] at hop ⊢ <;> omega

/-- Compare with an operand that fits the width writes C, Z and N of the comparison and nothing else. -/
theorem writesCompareFlags_compare (s : State) {w : Width} (reg : Nat) {op : Nat} (hop : op < w.modulus) :
    WritesCompareFlags s (s.compare reg op w) w reg op := by
  have hzn : ZeroNegativeOf (s.compare reg op w) w ((reg + (w.modulus - op)) % w.modulus) := by
    rw [← wrap_sub reg hop]
    exact ⟨State.flag_compare s reg op w .Z, State.flag_compare s reg op w .N⟩
  exact ⟨State.flag_compare s reg op w .C, hzn, sameFlagsBut_compare s reg op w, ⟨rfl, rfl, rfl⟩, ⟨rfl, rfl⟩,
    ⟨rfl, rfl, rfl, rfl, rfl⟩, fun addr => memRead_congr rfl addr⟩

/-- Settles O27: each of the three is Compare of its register's low part with the immediate's, at its width. -/
theorem compareWritesOnlyItsFlags : Obligations.CompareWritesOnlyItsFlags :=
  ⟨fun c imm => ⟨cons_immediateBytes 0xC9 c.m8 imm, cons_immediateBytes 0xE0 c.x8 imm,
      cons_immediateBytes 0xC0 c.x8 imm⟩,
    fun op _ => operandFetchFaults op,
    fun imm s => ⟨⟨_, exec_cmpImm imm s, writesCompareFlags_compare s _ (low_lt imm s.wA)⟩,
      ⟨_, exec_cpxImm imm s, writesCompareFlags_compare s _ (low_lt imm s.wXY)⟩,
      ⟨_, exec_cpyImm imm s, writesCompareFlags_compare s _ (low_lt imm s.wXY)⟩⟩⟩

end Sys2Proof.Machine

/-! ### The order that C and Z hold after a compare (spec/41_compare.md R109) -/

namespace Sys2Proof.Machine

/-- The wrapping difference of two width-w numbers is zero exactly when they are equal. -/
theorem wrap_sub_eq_zero_iff {w : Width} {reg op : Nat} (hreg : reg < w.modulus) (hop : op < w.modulus) :
    wrap w ((reg : Int) - op) = 0 ↔ reg = op := by
  cases w <;> simp only [wrap, Width.modulus] at hreg hop ⊢ <;> omega

/-- After Compare, C holds exactly on unsigned at least. -/
theorem State.flag_C_compare (s : State) (reg op : Nat) (w : Width) :
    (s.compare reg op w).flag .C = true ↔ op ≤ reg := by
  simp

/-- After Compare of two width-w numbers, Z holds exactly on equality. -/
theorem State.flag_Z_compare (s : State) {w : Width} {reg op : Nat} (hreg : reg < w.modulus) (hop : op < w.modulus) :
    (s.compare reg op w).flag .Z = true ↔ reg = op := by
  simpa using wrap_sub_eq_zero_iff hreg hop

/-- A conditional branch adds its displacement to PC or leaves the state as it is (spec/42_branch.md R110). -/
theorem State.branchIf_eq_ite (s : State) (taken : Bool) (disp : Byte) :
    s.branchIf taken disp = if taken then s.withPc (s.pc + disp.signExtend 16) else s := by
  rw [State.branchIf, State.branchTo_sext8]

/-- BCS tests C (R114). -/
theorem exec_bcs (disp : Byte) (s : State) :
    exec (.bcs disp) s = .next (if s.flag .C then s.withPc (s.pc + disp.signExtend 16) else s) :=
  congrArg Host.Outcome.next (s.branchIf_eq_ite (s.flag .C) disp)

/-- BEQ tests Z (R116). -/
theorem exec_beq (disp : Byte) (s : State) :
    exec (.beq disp) s = .next (if s.flag .Z then s.withPc (s.pc + disp.signExtend 16) else s) :=
  congrArg Host.Outcome.next (s.branchIf_eq_ite (s.flag .Z) disp)

/-- Settles O28: CMP leaves "at least" in C and "equal" in Z, and each branch tests one of the two. -/
theorem compareThenBranchDecidesTheOrder : Obligations.CompareThenBranchDecidesTheOrder := by
  intro imm disp s t h
  rw [exec_cmpImm, Host.Outcome.next.injEq] at h
  have hC : t.flag .C = true ↔ low imm s.wA ≤ low s.a s.wA := h ▸ s.flag_C_compare _ _ _
  have hZ : t.flag .Z = true ↔ low s.a s.wA = low imm s.wA := h ▸ s.flag_Z_compare (low_lt _ _) (low_lt _ _)
  refine ⟨?_, ?_, ?_, ?_⟩
  · rw [hC, hZ]
    exact and_iff_right_of_imp fun heq => heq.ge
  · rw [← Bool.not_eq_true, hC, Nat.not_le]
  · simp only [exec_bcs, hC]
  · simp only [exec_beq, hZ]

end Sys2Proof.Machine

/-! ### Branches (spec/42_branch.md R110 to R118) -/

namespace Sys2Proof.Machine

/-- A branch on a clear flag: the model tests the flag's negation. -/
theorem State.branchIf_not_eq_ite (s : State) (flag : Bool) (disp : Byte) :
    s.branchIf (!flag) disp = if flag = false then s.withPc (s.pc + disp.signExtend 16) else s := by
  rw [State.branchIf_eq_ite]
  cases flag <;> rfl

/-- BPL tests N clear (R111). -/
theorem exec_bpl (disp : Byte) (s : State) :
    exec (.bpl disp) s = .next (if s.flag .N = false then s.withPc (s.pc + disp.signExtend 16) else s) :=
  congrArg Host.Outcome.next (s.branchIf_not_eq_ite (s.flag .N) disp)

/-- BMI tests N (R112). -/
theorem exec_bmi (disp : Byte) (s : State) :
    exec (.bmi disp) s = .next (if s.flag .N then s.withPc (s.pc + disp.signExtend 16) else s) :=
  congrArg Host.Outcome.next (s.branchIf_eq_ite (s.flag .N) disp)

/-- BCC tests C clear (R113). -/
theorem exec_bcc (disp : Byte) (s : State) :
    exec (.bcc disp) s = .next (if s.flag .C = false then s.withPc (s.pc + disp.signExtend 16) else s) :=
  congrArg Host.Outcome.next (s.branchIf_not_eq_ite (s.flag .C) disp)

/-- BNE tests Z clear (R115). -/
theorem exec_bne (disp : Byte) (s : State) :
    exec (.bne disp) s = .next (if s.flag .Z = false then s.withPc (s.pc + disp.signExtend 16) else s) :=
  congrArg Host.Outcome.next (s.branchIf_not_eq_ite (s.flag .Z) disp)

/-- BRA is BranchTo of the sign-extended byte (R117). -/
theorem exec_bra (disp : Byte) (s : State) :
    exec (.bra disp) s = .next (s.withPc (s.pc + disp.signExtend 16)) :=
  congrArg Host.Outcome.next (s.branchTo_sext8 disp)

/-- BRL is BranchTo of the 16-bit displacement (R118). -/
theorem exec_brl (disp : Word) (s : State) :
    exec (.brl disp) s = .next (s.withPc (s.pc + disp)) :=
  congrArg Host.Outcome.next (s.branchTo_sext16 disp)

/-- Settles O29: each branch is BranchIf on its flag, or on the flag's negation. -/
theorem conditionalBranchesTestOneFlag : Obligations.ConditionalBranchesTestOneFlag :=
  ⟨fun _ _ => ⟨rfl, rfl, rfl, rfl, rfl, rfl⟩, fun op _ => operandFetchFaults op,
    fun d s => ⟨exec_bpl d s, exec_bmi d s, exec_bcc d s, exec_bcs d s, exec_bne d s, exec_beq d s⟩⟩

/-- Settles O30: both are BranchTo, which adds the displacement to PC modulo 2^16. -/
theorem unconditionalBranchesAddTheirDisplacement : Obligations.UnconditionalBranchesAddTheirDisplacement :=
  ⟨fun _ _ _ => ⟨rfl, rfl⟩, operandFetchFaults 0x80, operandFetchFaults 0x82, exec_bra, exec_brl⟩

end Sys2Proof.Machine

/-! ### Increment and decrement (spec/43_incdec.md R120 to R127) -/

namespace Sys2Proof.Machine

theorem exec_inx (s : State) : exec .inx s =
    .next ((s.withX (merge s.x s.wXY (incValue s.x s.wXY))).withPs (putZN s.ps s.wXY (incValue s.x s.wXY))) := rfl

theorem exec_iny (s : State) : exec .iny s =
    .next ((s.withY (merge s.y s.wXY (incValue s.y s.wXY))).withPs (putZN s.ps s.wXY (incValue s.y s.wXY))) := rfl

theorem exec_dex (s : State) : exec .dex s =
    .next ((s.withX (merge s.x s.wXY (decValue s.x s.wXY))).withPs (putZN s.ps s.wXY (decValue s.x s.wXY))) := rfl

theorem exec_dey (s : State) : exec .dey s =
    .next ((s.withY (merge s.y s.wXY (decValue s.y s.wXY))).withPs (putZN s.ps s.wXY (decValue s.y s.wXY))) := rfl

theorem exec_incA (s : State) : exec .incA s =
    .next ((s.withA (merge s.a s.wA (incValue s.a s.wA))).withPs (putZN s.ps s.wA (incValue s.a s.wA))) := rfl

theorem exec_decA (s : State) : exec .decA s =
    .next ((s.withA (merge s.a s.wA (decValue s.a s.wA))).withPs (putZN s.ps s.wA (decValue s.a s.wA))) := rfl

/-- Merging a result that fits the width into a register, with setZN of it, is the write of R120, in any state that
keeps PC, K, the system registers and the bus. -/
theorem writesRegister_merge {s t : State} {w : Width} {r : Nat} (before : Word) (hr : r < w.modulus)
    (hps : t.ps = putZN s.ps w r) (hplace : SamePlace s t) (hsystem : SameSystem s t) (hbus : t.bus = s.bus) :
    WritesRegister s t w before (merge before w r) r := by
  have hhidden : w = .w8 → highByte (merge before w r) = highByte before := by
    rintro rfl
    exact highByte_merge_w8 before r
  have hzn : ZeroNegativeOf t w r := by
    constructor <;> simp [State.flag_eq, hps]
  have hflags : SameFlagsBut [.Z, .N] s t := fun f hf => by
    rw [State.flag_eq t, hps]
    exact sameFlagsBut_putZN s w r (by decide) (by decide) f hf
  exact ⟨low_merge hr, hhidden, hzn, hflags, hplace, hsystem, fun addr => memRead_congr hbus addr⟩

section
variable (s : State) {w : Width} {r : Nat}

theorem writesRegister_withA (hr : r < w.modulus) :
    WritesRegister s ((s.withA (merge s.a w r)).withPs (putZN s.ps w r)) w s.a (merge s.a w r) r :=
  writesRegister_merge s.a hr rfl ⟨rfl, rfl⟩ ⟨rfl, rfl, rfl, rfl, rfl⟩ rfl

theorem writesRegister_withX (hr : r < w.modulus) :
    WritesRegister s ((s.withX (merge s.x w r)).withPs (putZN s.ps w r)) w s.x (merge s.x w r) r :=
  writesRegister_merge s.x hr rfl ⟨rfl, rfl⟩ ⟨rfl, rfl, rfl, rfl, rfl⟩ rfl

theorem writesRegister_withY (hr : r < w.modulus) :
    WritesRegister s ((s.withY (merge s.y w r)).withPs (putZN s.ps w r)) w s.y (merge s.y w r) r :=
  writesRegister_merge s.y hr rfl ⟨rfl, rfl⟩ ⟨rfl, rfl, rfl, rfl, rfl⟩ rfl

end

/-- Settles O33: each merges Inc or Dec of its register, which fits the width, and sets Z and N of it. -/
theorem incDecWriteTheWrappedValue : Obligations.IncDecWriteTheWrappedValue := by
  refine ⟨fun _ => ⟨rfl, rfl, rfl, rfl, rfl, rfl⟩, fun s wa wxy hwa hwxy => ?_⟩
  obtain rfl : wa = s.wA := hwa
  obtain rfl : wxy = s.wXY := hwxy
  simp only [← incValue_eq, ← decValue_eq]
  exact ⟨⟨_, exec_inx s, writesRegister_withX s (incValue_lt _ _), rfl, rfl⟩,
    ⟨_, exec_iny s, writesRegister_withY s (incValue_lt _ _), rfl, rfl⟩,
    ⟨_, exec_dex s, writesRegister_withX s (decValue_lt _ _), rfl, rfl⟩,
    ⟨_, exec_dey s, writesRegister_withY s (decValue_lt _ _), rfl, rfl⟩,
    ⟨_, exec_incA s, writesRegister_withA s (incValue_lt _ _), rfl, rfl⟩,
    ⟨_, exec_decA s, writesRegister_withA s (decValue_lt _ _), rfl, rfl⟩⟩

/-! ### An increment and then the decrement (spec/43_incdec.md R127, law 1) -/

/-- setZN keeps the width of X and Y. -/
theorem State.wXY_withPs_putZN (s t : State) (w : Width) (v : Nat) : (t.withPs (putZN s.ps w v)).wXY = s.wXY := by
  simp [State.wXY, State.flag_eq]

/-- setZN keeps the width of A. -/
theorem State.wA_withPs_putZN (s t : State) (w : Width) (v : Nat) : (t.withPs (putZN s.ps w v)).wA = s.wA := by
  simp [State.wA, State.flag_eq]

/-- Of two merges into a register the last one counts. -/
theorem merge_merge (r : Word) (w : Width) (u v : Nat) : merge (merge r w u) w v = merge r w v := by
  cases w with
  | w8 => rw [merge, highByte_merge_w8, merge]
  | w16 => rfl

/-- A register's own low part merged into it changes nothing. -/
theorem merge_low (r : Word) (w : Width) : merge r w (low r w) = r := by
  apply BitVec.eq_of_toNat_eq
  cases w with
  | w8 =>
    rw [merge_w8_toNat, low_w8]
    omega
  | w16 => simp [merge, low]

/-- Dec of an incremented register is the low part it had: 1 and 2^w - 1 add up to 2^w. -/
theorem decValue_merge_incValue (r : Word) (w : Width) : decValue (merge r w (incValue r w)) w = low r w := by
  have hlow := low_lt r w
  rw [decValue_eq, low_merge (incValue_lt r w), incValue_eq]
  cases w <;> simp only [Width.modulus] at hlow ⊢ <;> omega

/-- Dec after Inc at the same width restores the register. -/
theorem merge_dec_merge_inc (r : Word) (w : Width) :
    merge (merge r w (incValue r w)) w (decValue (merge r w (incValue r w)) w) = r := by
  rw [decValue_merge_incValue, merge_merge, merge_low]

/-- Settles O34: the increment keeps the width flags, so the decrement works at the same width. -/
theorem incThenDecRestoresTheRegister : Obligations.IncThenDecRestoresTheRegister := by
  refine fun s => ⟨⟨_, _, exec_inx s, exec_dex _, ?_⟩, ⟨_, _, exec_iny s, exec_dey _, ?_⟩,
    ⟨_, _, exec_incA s, exec_decA _, ?_⟩⟩
  · rw [State.wXY_withPs_putZN s]
    exact merge_dec_merge_inc s.x s.wXY
  · rw [State.wXY_withPs_putZN s]
    exact merge_dec_merge_inc s.y s.wXY
  · rw [State.wA_withPs_putZN s]
    exact merge_dec_merge_inc s.a s.wA

end Sys2Proof.Machine

/-! ### Flag control (spec/44_flag_control.md R130 to R138) -/

namespace Sys2Proof.Machine

/-- Settles O35: each of the seven is one flag write, OR with the flag's mask or AND with the mask's complement. -/
theorem flagInstructionsWriteOneBit : Obligations.FlagInstructionsWriteOneBit :=
  ⟨fun _ => ⟨rfl, rfl, rfl, rfl, rfl, rfl, rfl⟩, fun _ => ⟨rfl, rfl, rfl, rfl, rfl, rfl, rfl⟩⟩

/-- x and m both set is OR with their two masks (spec/10_state.md R27). -/
theorem putFlag_x_m_true (ps : Byte) : putFlag (putFlag ps .x true) .m true = ps ||| 0x30 :=
  BitVec.or_assoc ps (Flag.mask .x) (Flag.mask .m)

/-- Settles O36: `exec_rep`, with the complement of the mask and the two forced flags as the rule writes them. -/
theorem repClearsTheMaskedBits : Obligations.RepClearsTheMaskedBits := by
  refine ⟨fun _ _ => rfl, operandFetchFaults 0xC2, fun mask s => ?_⟩
  have hmask : 0xFF - mask = ~~~mask := BitVec.allOnes_sub_eq_not mask
  rw [exec_rep, putFlag_x_m_true, hmask]
  rfl

/-- Bit 4 of PS is the flag x (spec/10_state.md R27). -/
theorem and_bit4_eq_zero_iff (ps : Byte) : ps &&& 0x10 = 0 ↔ getFlag ps .x = false := by
  have hand : ps &&& 0x10 = if getFlag ps .x then 0x10 else 0 := BitVec.and_twoPow ps 4
  rw [hand]
  cases getFlag ps .x <;> decide

/-- SEP's truncation keeps the low byte and makes the high byte zero. -/
theorem truncateIndex_eq_wordOfBytes (r : Word) : truncateIndex r = wordOfBytes (lowByte r) 0 := by
  apply BitVec.eq_of_toNat_eq
  rw [truncateIndex_toNat, wordOfBytes_toNat, lowByte_toNat]
  rfl

/-- Settles O37: `exec_sep`, in the two cases of x after the write. -/
theorem sepSetsTheMaskedBitsAndTruncates : Obligations.SepSetsTheMaskedBitsAndTruncates := by
  refine ⟨fun _ _ => rfl, operandFetchFaults 0xE2, fun mask s => ?_⟩
  simp only [exec_sep, and_bit4_eq_zero_iff, ← truncateIndex_eq_wordOfBytes]
  cases getFlag (s.ps ||| mask) .x <;> rfl

/-! ### The laws of the mode switches (spec/44_flag_control.md R139) -/

section
variable {mask : Byte} {s t : State}

/-- In emulation mode REP leaves 8-bit registers, whatever the mask. -/
theorem exec_rep_emulation (he : s.e = true) (h : exec (.rep mask) s = .next t) :
    t.flag .x = true ∧ t.flag .m = true := by
  rw [exec_rep, he] at h
  cases h
  simp

/-- SEP sets the flags that its mask selects and keeps the others. -/
theorem flag_of_exec_sep (h : exec (.sep mask) s = .next t) (f : Flag) :
    t.flag f = (s.flag f || getFlag mask f) := by
  rw [exec_sep] at h
  cases h
  exact getFlag_or s.ps mask f

/-- SEP truncates X and Y whenever x is 1 after it. -/
theorem index_of_exec_sep (h : exec (.sep mask) s = .next t) (hx : t.flag .x = true) :
    t.x = truncateIndex s.x ∧ t.y = truncateIndex s.y := by
  rw [exec_sep] at h
  cases h
  have hx' : getFlag (s.ps ||| mask) .x = true := hx
  simp [hx']

end

/-- Bits set by a mask and then cleared by it are cleared, the others are as they were. -/
theorem or_and_not_mask (ps mask : Byte) : (ps ||| mask) &&& ~~~mask = ps &&& ~~~mask := by
  rw [BitVec.and_or_distrib_right, BitVec.and_not_self]
  exact BitVec.or_zero

/-- Settles O38, law by law. -/
theorem modeSwitchLaws : Obligations.ModeSwitchLaws := by
  refine ⟨fun _ _ _ => exec_rep_emulation, fun mask s t hsep hx => ?_, fun _ mask s => ⟨rfl, rfl, ?_, ?_⟩,
    fun mask s he => ?_⟩
  · obtain ⟨htx, hty⟩ := index_of_exec_sep hsep hx
    rw [htx, hty]
    exact ⟨truncateIndex_toNat s.x, truncateIndex_toNat s.y⟩
  · exact ⟨_, exec_rep mask s, ⟨rfl, rfl, rfl⟩, ⟨rfl, rfl⟩, ⟨rfl, rfl, rfl, rfl, rfl⟩, memRead_congr rfl⟩
  · exact ⟨_, exec_sep mask s, rfl, ⟨rfl, rfl⟩, ⟨rfl, rfl, rfl, rfl, rfl⟩, memRead_congr rfl⟩
  · refine ⟨_, _, exec_sep mask s, exec_rep mask _, ?_⟩
    simp [he, or_and_not_mask]

/-! ### Emulation mode never widens a register (spec/44_flag_control.md R137) -/

/-- Of all instructions only REP and SEP may write x or m. -/
theorem rep_or_sep_of_width_written {i : Instr} {f : Flag} (hf : f = .x ∨ f = .m) (hw : f ∈ flagsWritten i) :
    (∃ mask, i = .rep mask) ∨ ∃ mask, i = .sep mask := by
  cases i with
  | rep mask => exact .inl ⟨mask, rfl⟩
  | sep mask => exact .inr ⟨mask, rfl⟩
  | _ => obtain rfl | rfl := hf <;> simp [flagsWritten] at hw

/-- In emulation mode no instruction clears x or m: REP forces them to 1, SEP only sets flags, the others keep both. -/
theorem exec_emulation_keeps_narrow {i : Instr} {s t : State} {f : Flag} (hf : f = .x ∨ f = .m) (he : s.e = true)
    (h : exec i s = .next t) (hs : s.flag f = true) : t.flag f = true := by
  by_cases hw : f ∈ flagsWritten i
  · obtain ⟨mask, rfl⟩ | ⟨mask, rfl⟩ := rep_or_sep_of_width_written hf hw
    · obtain ⟨hx, hm⟩ := exec_rep_emulation he h
      obtain rfl | rfl := hf
      · exact hx
      · exact hm
    · rw [flag_of_exec_sep h, hs, Bool.true_or]
  · exact ((exec_effect h).sameFlagsBut f hw).trans hs

/-- In emulation mode no step clears x or m: the fetch before the instruction writes PC alone. -/
theorem step_emulation_keeps_narrow {s t : State} {f : Flag} (hf : f = .x ∨ f = .m) (he : s.e = true)
    (h : step s = .next t) (hs : s.flag f = true) : t.flag f = true := by
  obtain ⟨-, i, s', hfetch, hexec⟩ := step_next h
  obtain ⟨opcode, operands, -, -, -, rfl⟩ := fetchInstr_ok hfetch
  refine exec_emulation_keeps_narrow hf ?_ hexec ?_
  · rwa [State.withPc_e]
  · rwa [State.flag_withPc]

/-- Settles O50: a step keeps E, and with E = 1 it clears neither m nor x. -/
theorem emulationModeNeverWidens : Obligations.EmulationModeNeverWidens := by
  intro s t he hstep
  obtain ⟨-, -, -, hte, -, -⟩ := step_keeps hstep
  exact ⟨hte.trans he, step_emulation_keeps_narrow (.inr rfl) he hstep,
    step_emulation_keeps_narrow (.inl rfl) he hstep⟩

end Sys2Proof.Machine

/-! ### Jumps and the program bank (spec/45_jump.md R145 to R147) -/

namespace Sys2Proof.Machine

/-- JMP loads PC alone (R145). -/
theorem exec_jmpAbs (target : Word) (s : State) : exec (.jmpAbs target) s = .next (s.withPc target) := rfl

/-- JML loads PC and K from the two parts of its target (R146). -/
theorem exec_jmlLong (target : Addr) (s : State) :
    exec (.jmlLong target) s = .next ((s.withPc (offsetWord target)).withK (bankByte target)) := rfl

/-- An address's offset, as a number taken modulo 2^16. -/
theorem offsetWord_eq_ofNat (a : Addr) : offsetWord a = BitVec.ofNat 16 a.toNat := by
  apply BitVec.eq_of_toNat_eq
  rw [offsetWord_toNat, BitVec.toNat_ofNat]

/-- An address's bank, as a quotient. -/
theorem bankByte_eq_ofNat (a : Addr) : bankByte a = BitVec.ofNat 8 (a.toNat / 0x10000) := by
  rw [← bankByte_toNat, BitVec.ofNat_toNat, BitVec.setWidth_eq]

/-- Settles O31: the target's bytes come back out of its assembly, and its two parts are R146's bit fields. -/
theorem jumpsLoadTheirTarget : Obligations.JumpsLoadTheirTarget := by
  refine ⟨fun c lo hi bank => ⟨?_, ?_⟩, operandFetchFaults 0x4C, operandFetchFaults 0x5C, exec_jmpAbs,
    fun target s => ?_⟩
  · simp only [encode, lowByte_wordOfBytes, highByte_wordOfBytes]
  · simp only [encode, offsetWord_addrOfBytes, bankByte_addrOfBytes, lowByte_wordOfBytes, highByte_wordOfBytes]
  · rw [exec_jmlLong, offsetWord_eq_ofNat, bankByte_eq_ofNat]
    rfl

/-- Of all effects only JML's writes K. -/
theorem Effect.k_cases {i : Instr} {s t : State} (h : Effect i s t) :
    t.k = s.k ∨ ∃ target, i = .jmlLong target := by
  cases h with
  | jumpLong target hi => exact .inr ⟨target, hi⟩
  | branch | flags | writeA | writeX | writeY | sep => exact .inl rfl

/-- Settles O13: a step that changes K is an effect of JML, and the byte fetched for it is JML's opcode. -/
theorem onlyJmlChangesTheBank : Obligations.OnlyJmlChangesTheBank := by
  intro s t hstep hk
  obtain ⟨op, i, hread, hop, heff⟩ := step_effect hstep
  obtain ⟨target, rfl⟩ := heff.k_cases.resolve_left hk
  have hop' : 0x5C = op := Option.some.inj hop
  rw [hread, hop']

end Sys2Proof.Machine

/-! ### How an instruction and a step end (spec/60_exceptions.md R150 to R156) -/

namespace Sys2Proof.Machine

/-- Every instruction but the default row answers a next state: it reads no memory and raises no fault (R156). -/
theorem exec_completes {i : Instr} (hi : ∀ op, i ≠ .unimplemented op) (s : State) : ∃ t, exec i s = .next t := by
  cases i
  case unimplemented op => exact absurd rfl (hi op)
  all_goals exact ⟨_, rfl⟩

/-- Settles O11: what completes keeps the system registers and the bus, so every read is as before. -/
theorem admittedInstructionsAlwaysComplete : Obligations.AdmittedInstructionsAlwaysComplete := by
  intro i s hi
  obtain ⟨t, ht⟩ := exec_completes hi s
  obtain ⟨hsp, hd, hdbr, he, hbus, hstatus⟩ := exec_keeps ht
  exact ⟨t, ht, ⟨hsp, hd, hdbr, he, hstatus⟩, memRead_congr hbus⟩

/-- An instruction is never refused: the default row faults and every other completes. -/
theorem exec_next_or_fault (i : Instr) (s : State) : (∃ t, exec i s = .next t) ∨ ∃ f, exec i s = .fault f := by
  by_cases hi : ∃ op, i = .unimplemented op
  · obtain ⟨op, rfl⟩ := hi
    exact .inr ⟨_, exec_unimplemented op s⟩
  · exact .inl (exec_completes (not_exists.1 hi) s)

/-- A step of a running state is never refused. -/
theorem step_next_or_fault {s : State} (h : s.status = .running) :
    (∃ t, step s = .next t) ∨ ∃ f, step s = .fault f := by
  cases hfetch : fetchInstr s with
  | error f => exact .inr ⟨f, step_fetch_error h hfetch⟩
  | ok r =>
    rw [step_fetch_ok h hfetch]
    exact exec_next_or_fault r.1 r.2

/-- A step that completes leaves the machine running. -/
theorem step_next_running {s t : State} (h : step s = .next t) : t.status = .running := by
  obtain ⟨hrunning, -⟩ := step_next h
  obtain ⟨-, -, -, -, -, hstatus⟩ := step_keeps h
  exact hstatus.trans hrunning

theorem advance_of_next {s t : State} (h : step s = .next t) : advance s = t := by
  rw [advance, h]

/-- Settles O8: a running step is not refused, and `advance` keeps what it answers; a faulted state has no step. -/
theorem runningStepEndsInNextStateOrFault : Obligations.RunningStepEndsInNextStateOrFault := by
  refine ⟨fun s hs => ?_, fun s f hs => ⟨fun t hnext => ?_, advance_of_faulted hs⟩⟩
  · obtain ⟨t, ht⟩ | ⟨f, hf⟩ := step_next_or_fault hs
    · exact .inl ⟨t, ht, step_next_running ht, advance_of_next ht⟩
    · exact .inr ⟨f, hf, advance_of_fault hf⟩
  · rw [step_faulted hs] at hnext
    cases hnext

/-- An opcode byte that cannot be read ends the fetch. -/
theorem fetchInstr_opcode_error {s : State} {f : Fault} (h : memRead s (codeAddress s.k s.pc) = .error f) :
    fetchInstr s = .error f := by
  rw [fetchInstr, fetch8_error.2 h]

/-- Settles O6, fault by fault in fetch order: the opcode byte, the default row, the operand bytes. -/
theorem firstFaultInFetchOrderEndsTheStep : Obligations.FirstFaultInFetchOrderEndsTheStep := by
  intro s hs
  obtain ⟨-, -, hunimplemented⟩ := unimplementedOpcodeFaultsAtItsAddress
  exact ⟨fun f hf => step_fetch_error hs (fetchInstr_opcode_error hf),
    fun op => hunimplemented op s hs,
    fun op f n hread _ => operandFetchFaults op s f n hs hread⟩

/-! ### Where the fault of a step comes from (spec/60_exceptions.md R151, R153) -/

/-- A read that fails is a read of open bus or of a device window. -/
theorem memRead_error {s : State} {addr : Addr} {f : Fault} (h : memRead s addr = .error f) :
    (decodeAddress addr = .openBus ∧ f = .unmappedAccess addr .read) ∨
      ∃ r, decodeAddress addr = .reserved r ∧ f = .reservedRegionAccess addr .read r := by
  rw [memRead] at h
  cases hregion : decodeAddress addr with
  | ram i => rw [Bus.read_ram _ hregion] at h; cases h
  | rom i => rw [Bus.read_rom _ hregion] at h; cases h
  | reserved r => rw [Bus.read_reserved _ hregion] at h; cases h; exact .inr ⟨r, rfl, rfl⟩
  | openBus => rw [Bus.read_openBus _ hregion] at h; cases h; exact .inl ⟨rfl, rfl⟩

/-- A run of fetches that faults met a byte that cannot be read. -/
theorem exists_read_error_of_fetchBytes {m : Nat} {s : State} {f : Fault} (h : fetchBytes m s = .error f) :
    ∃ n < m, memRead s (codeAddress s.k (s.pc + BitVec.ofNat 16 n)) = .error f := by
  induction m generalizing s with
  | zero => cases h
  | succ m ih =>
    rw [fetchBytes] at h
    split at h
    next h8 =>
      cases h
      exact ⟨0, Nat.zero_lt_succ m, by simpa using fetch8_error.1 h8⟩
    next b s1 h8 =>
      obtain ⟨-, rfl⟩ := fetch8_ok.1 h8
      split at h
      next hrest =>
        cases h
        obtain ⟨n, hn, hread⟩ := ih hrest
        exact ⟨n + 1, Nat.succ_lt_succ hn, by simpa [pc_shift] using hread⟩
      next => cases h

/-- An instruction fetch that faults met a byte that cannot be read, at most three past the opcode byte. -/
theorem exists_read_error_of_fetchInstr {s : State} {f : Fault} (h : fetchInstr s = .error f) :
    ∃ n ≤ 3, memRead s (codeAddress s.k (s.pc + BitVec.ofNat 16 n)) = .error f := by
  rw [fetchInstr] at h
  split at h
  next h8 =>
    cases h
    exact ⟨0, Nat.zero_le 3, by simpa using fetch8_error.1 h8⟩
  next op s1 h8 =>
    obtain ⟨-, rfl⟩ := fetch8_ok.1 h8
    split at h
    next hoperands =>
      cases h
      obtain ⟨n, hn, hread⟩ := exists_read_error_of_fetchBytes hoperands
      exact ⟨n + 1, Nat.le_trans hn (operandCount_le_three _ op), by simpa [pc_shift] using hread⟩
    next => cases h

/-- An instruction that was fetched and is not the default row's completes, so where it faults its opcode byte is not
admitted. -/
theorem opcode_not_admitted_of_exec_fault {s s' : State} {i : Instr} {f : Fault} (hfetch : fetchInstr s = .ok (i, s'))
    (hexec : exec i s' = .fault f) : ∃ op, memRead s (codeAddress s.k s.pc) = .ok op ∧ op ∉ admittedOpcodes := by
  obtain ⟨op, operands, hlen, hread, rfl, -⟩ := fetchInstr_ok hfetch
  refine ⟨op, hread, fun hop => ?_⟩
  obtain ⟨t, ht⟩ := exec_completes (decode_ne_unimplemented hop (decode_exact hlen)) s'
  cases ht.symm.trans hexec

/-- A step that faults met an opcode byte that is not admitted, or an instruction byte that cannot be read. -/
theorem step_fault {s : State} {f : Fault} (h : step s = .fault f) :
    (∃ op, memRead s (codeAddress s.k s.pc) = .ok op ∧ op ∉ admittedOpcodes ∧
      f = .unimplementedOpcode op (codeAddress s.k s.pc)) ∨
    ∃ n ≤ 3, memRead s (codeAddress s.k (s.pc + BitVec.ofNat 16 n)) = .error f := by
  cases hs : s.status with
  | faulted g => rw [step_faulted hs] at h; cases h
  | running =>
    cases hfetch : fetchInstr s with
    | error g =>
      cases (step_fetch_error hs hfetch).symm.trans h
      exact .inr (exists_read_error_of_fetchInstr hfetch)
    | ok r =>
      obtain ⟨op, hread, hop⟩ := opcode_not_admitted_of_exec_fault hfetch ((step_fetch_ok hs hfetch).symm.trans h)
      obtain ⟨-, -, hunimplemented⟩ := unimplementedOpcodeFaultsAtItsAddress
      cases (hunimplemented op s hs hread hop).symm.trans h
      exact .inl ⟨op, hread, hop, rfl⟩

/-- Settles O9: the byte that a faulting step could not read lies in open bus or in a device window. -/
theorem stepFaultsAreFetchFaults : Obligations.StepFaultsAreFetchFaults := by
  intro s f h
  obtain ⟨op, hread, hop, rfl⟩ | ⟨n, hn, hread⟩ := step_fault h
  · exact .inl ⟨op, hread, hop, rfl, rfl⟩
  · refine .inr ⟨n, hn, _, rfl, ?_⟩
    obtain ⟨hopen, rfl⟩ | ⟨r, hreserved, rfl⟩ := memRead_error hread
    · exact .inl ⟨hopen, rfl, rfl⟩
    · exact .inr ⟨r, hreserved, rfl, rfl⟩

end Sys2Proof.Machine

/-! ### The emulation bit (spec/60_exceptions.md R161) -/

namespace Sys2Proof.Machine

/-- E replaced, everything else kept. -/
def State.withE (b : Bool) (s : State) : State := { s with e := b }

theorem fetchBlind_withE (b : Bool) : FetchBlind (State.withE b) where
  bus _ := rfl
  k _ := rfl
  pc _ := rfl
  widths _ := rfl
  status _ := rfl
  withPc _ _ := rfl

/-- No instruction but REP reads E, and none writes it (spec/10_state.md R37). As in `exec_withUnused`, the
instructions that end in one of two states are first written as one state with a choice in its fields. -/
theorem exec_withE (b : Bool) {i : Instr} (hi : ∀ mask, i ≠ .rep mask) (s : State) :
    exec i (s.withE b) = mapState (State.withE b) (exec i s) := by
  cases i
  case rep mask => exact absurd rfl (hi mask)
  case bpl | bmi | bcc | bcs | bne | beq =>
    simp only [exec, execBpl, execBmi, execBcc, execBcs, execBne, execBeq, State.branchIf_eq]
    rfl
  case sep => rw [exec_sep, exec_sep]; rfl
  all_goals rfl

/-- The byte at K:PC when a REP is fetched. -/
theorem opcode_of_fetched_rep {s s' : State} {mask : Byte} (h : fetchInstr s = .ok (.rep mask, s')) :
    memRead s (codeAddress s.k s.pc) = .ok 0xC2 := by
  obtain ⟨op, operands, -, hread, hi, -⟩ := fetchInstr_ok h
  have hop := head_encode_instrOf (widthsOf s.ps) op operands
  rw [← hi] at hop
  rw [hread, ← Option.some.inj hop]

/-- Settles O17: a fetch does not see E, and what it fetches is REP only where the byte is 0xC2. -/
theorem emulationBitMattersOnlyToRep : Obligations.EmulationBitMattersOnlyToRep := by
  refine ⟨fun _ s hi => exec_completes hi s, fun s b hop => ?_⟩
  refine (fetchBlind_withE b).step s fun i s' hfetch => exec_withE b ?_ s'
  rintro mask rfl
  exact hop (opcode_of_fetched_rep hfetch)

end Sys2Proof.Machine

/-! ### IRQ disable (spec/60_exceptions.md R160) -/

namespace Sys2Proof.Machine

/-- If a fetch does not see `g`, and under `view` the instruction fetched does the same with and without it, so does
the step. -/
theorem FetchBlind.step_view {g view : State → State} (hg : FetchBlind g) (s : State)
    (hexec : ∀ i s', mapState view (exec i (g s')) = mapState view (exec i s')) :
    mapState view (Machine.step (g s)) = mapState view (Machine.step s) := by
  cases hs : s.status with
  | faulted f => rw [step_faulted hs, step_faulted ((hg.status s).trans hs)]
  | running =>
    have hgs := (hg.status s).trans hs
    have hfetch := hg.fetchInstr s
    cases hf : Machine.fetchInstr s with
    | error f =>
      rw [hf] at hfetch
      rw [step_fetch_error hs hf, step_fetch_error hgs hfetch]
    | ok r =>
      rw [hf] at hfetch
      rw [step_fetch_ok hs hf, step_fetch_ok hgs hfetch]
      exact hexec r.1 r.2

/-- A fetch looks at PS for the widths alone, so it does not see a flag other than m and x. -/
theorem fetchBlind_setFlag {f : Flag} (b : Bool) (hm : f ≠ .m) (hx : f ≠ .x) :
    FetchBlind fun s => s.setFlag f b where
  bus _ := rfl
  k _ := rfl
  pc _ := rfl
  widths s := by simp [State.setFlag, widthsOf, hm.symm, hx.symm]
  status _ := rfl
  withPc _ _ := rfl

/-- The instructions listed as writers of I (spec/10_state.md R30). -/
theorem writer_of_irqDisable {i : Instr} (h : .I ∈ flagsWritten i) :
    i = .cli ∨ i = .sei ∨ (∃ mask, i = .rep mask) ∨ ∃ mask, i = .sep mask := by
  cases i with
  | cli => exact .inl rfl
  | sei => exact .inr (.inl rfl)
  | rep mask => exact .inr (.inr (.inl ⟨mask, rfl⟩))
  | sep mask => exact .inr (.inr (.inr ⟨mask, rfl⟩))
  | _ => simp [flagsWritten] at h

/-- No instruction reads I. -/
theorem irqDisable_not_read (i : Instr) : .I ∉ flagsRead i := by
  cases i <;> simp [flagsRead]

/-- Settles O18: I is written by its listed writers alone, and neither a fetch nor an instruction reads it. -/
theorem irqDisableChangesNothingElse : Obligations.IrqDisableChangesNothingElse := by
  refine ⟨fun image ram => State.flag_construct image ram .I, fun i s t hexec hne => ?_, fun s b c => ?_⟩
  · exact writer_of_irqDisable (flagsChangeOnlyByTheirWriters i s t .I hexec hne)
  · refine (fetchBlind_setFlag b (by decide) (by decide)).step_view s fun i s' => ?_
    exact exec_withPs_of_not_read (irqDisable_not_read i)
      (fun f hf => by rw [getFlag_putFlag, if_neg hf, State.flag_eq]) c

end Sys2Proof.Machine

/-! ### Runs (spec/60_exceptions.md R168) -/

namespace Sys2Proof.Machine

section
variable {M : Host.Core} {s u : M.State} {f : M.Fault}

theorem run_succ_of_next (h : M.step s = .next u) (n : Nat) : M.run (n + 1) s = M.run n u := by
  rw [Host.Core.run, h]

theorem run_succ_of_fault (h : M.step s = .fault f) (n : Nat) : M.run (n + 1) s = .fault f := by
  rw [Host.Core.run, h]

theorem run_succ_of_refused {r : M.Refusal} (h : M.step s = .refused r) (n : Nat) :
    M.run (n + 1) s = .refused r := by
  rw [Host.Core.run, h]

/-- A state that is its own next state is where every run from it ends. -/
theorem run_of_step_self (h : M.step s = .next s) (n : Nat) : M.run n s = .next s := by
  induction n with
  | zero => rfl
  | succ n ih => rw [run_succ_of_next h, ih]

/-- A run faults exactly when a shorter run reaches a state whose step faults so. -/
theorem run_fault_iff (n : Nat) (s : M.State) :
    M.run n s = .fault f ↔ ∃ k < n, ∃ t, M.run k s = .next t ∧ M.step t = .fault f := by
  constructor
  · induction n generalizing s with
    | zero => intro h; cases h
    | succ n ih =>
      intro h
      cases hstep : M.step s with
      | next u =>
        rw [run_succ_of_next hstep] at h
        obtain ⟨k, hk, t, hrun, hfault⟩ := ih u h
        exact ⟨k + 1, Nat.succ_lt_succ hk, t, (run_succ_of_next hstep k).trans hrun, hfault⟩
      | fault g =>
        rw [run_succ_of_fault hstep] at h
        cases h
        exact ⟨0, Nat.zero_lt_succ n, s, rfl, hstep⟩
      | refused r =>
        rw [run_succ_of_refused hstep] at h
        cases h
  · rintro ⟨k, hk, t, hrun, hfault⟩
    induction k generalizing n s with
    | zero =>
      obtain ⟨n, rfl⟩ := Nat.exists_eq_succ_of_ne_zero (Nat.ne_of_gt hk)
      cases hrun
      exact run_succ_of_fault hfault n
    | succ k ih =>
      obtain ⟨n, rfl⟩ := Nat.exists_eq_succ_of_ne_zero (Nat.ne_of_gt (Nat.zero_lt_of_lt hk))
      obtain ⟨u, hu, hrest⟩ := run_succ_next hrun
      rw [run_succ_of_next hu]
      exact ih n u (Nat.lt_of_succ_lt_succ hk) hrest

end

/-- A run of a running state ends in a next state or in a fault, as each of its steps does. -/
theorem run_next_or_fault (n : Nat) {s : State} (hs : s.status = .running) :
    (∃ t, Host.Core.run Sys2Proof.core n s = .next t) ∨ ∃ f, Host.Core.run Sys2Proof.core n s = .fault f := by
  induction n generalizing s with
  | zero => exact .inl ⟨s, rfl⟩
  | succ n ih =>
    obtain ⟨t, ht⟩ | ⟨f, hf⟩ := step_next_or_fault hs
    · rw [run_succ_of_next (M := Sys2Proof.core) ht]
      exact ih (step_next_running ht)
    · exact .inr ⟨f, run_succ_of_fault (M := Sys2Proof.core) hf n⟩

/-- BRA with displacement 0xFE goes back over its own two bytes. -/
theorem pc_bra_to_itself (pc : Word) : pc + BitVec.ofNat 16 2 + (0xFE : Byte).signExtend 16 = pc := by
  have hcancel : BitVec.ofNat 16 2 + (0xFE : Byte).signExtend 16 = 0 := by decide
  rw [add_assoc, hcancel, add_zero]

/-- A halted state is its own next state. -/
theorem HaltedAt.step_self {h : Addr} {s : State} (hhalted : HaltedAt h s) : step s = .next s := by
  obtain ⟨hrunning, -, hcode⟩ := hhalted
  calc step s = exec (.bra 0xFE) (s.withPc (s.pc + BitVec.ofNat 16 2)) :=
        stepRunsTheDecodedInstruction s [0x80, 0xFE] (.bra 0xFE) hrunning rfl hcode
    _ = .next (s.withPc (s.pc + BitVec.ofNat 16 2 + (0xFE : Byte).signExtend 16)) := exec_bra 0xFE _
    _ = .next s := by rw [pc_bra_to_itself]; rfl

/-- Settles O32: by induction on the length of the run, from what one step can do. -/
theorem runsFaultOrGoOnAndHaltedStatesStay : Obligations.RunsFaultOrGoOnAndHaltedStatesStay :=
  ⟨fun n _ => run_next_or_fault n, fun n s _ => run_fault_iff (M := Sys2Proof.core) n s,
    fun _ _ hhalted => ⟨hhalted.step_self, run_of_step_self (M := Sys2Proof.core) hhalted.step_self⟩⟩

end Sys2Proof.Machine

/-! ### The cartridge loader (spec/60_exceptions.md R154) -/

namespace Sys2Proof.Machine

/-- The array made from a list of bytes lists nothing before its first index. -/
theorem Memory.read_ofBytesFrom_below {low i : Nat} (bytes : List Byte) (h : i < low) :
    (Memory.ofBytesFrom low bytes).read i = unlistedByte :=
  Memory.read_below (Memory.ofBytesFrom_wfFrom _ bytes low (Nat.le_refl _)) h

/-- The array made from a list of bytes holds them in order. -/
theorem Memory.read_ofBytesFrom {bytes : List Byte} (low k : Nat) (hk : k < bytes.length) :
    (Memory.ofBytesFrom low bytes).read (low + k) = bytes[k] := by
  induction bytes generalizing low k with
  | nil => cases hk
  | cons b rest ih =>
    rw [Memory.ofBytesFrom]
    cases k with
    | zero =>
      split
      next hb => exact (Memory.read_ofBytesFrom_below rest (Nat.lt_succ_self low)).trans hb.symm
      next => exact Memory.read_head low b _
    | succ k =>
      have htail := ih (low + 1) k (Nat.lt_of_succ_lt_succ hk)
      rw [Nat.add_right_comm, Nat.add_assoc] at htail
      split
      next => exact htail
      next => simpa [Memory.read] using htail

section
variable {hash : List Byte → Nat} {digest : Nat} {bytes : List Byte} (ramInit : Memory)

/-- A cartridge of the right length and hash is loaded, then the machine is constructed from its image. -/
theorem loadWith_accepted (h : bytes.length = Config.romSize ∧ hash bytes = digest) :
    loadWith hash digest bytes ramInit = .ok (State.construct (Memory.ofBytes bytes) ramInit) := by
  rw [loadWith, validateWith, if_pos h]

/-- Any other cartridge is rejected and nothing is constructed. -/
theorem loadWith_rejected (h : ¬(bytes.length = Config.romSize ∧ hash bytes = digest)) :
    loadWith hash digest bytes ramInit = .error .romValidationError := by
  rw [loadWith, validateWith, if_neg h]

end

/-- No step raises the loader's fault: it is neither of the kinds that a fetch raises. -/
theorem step_ne_romValidationError (s : State) : step s ≠ .fault .romValidationError := by
  intro h
  obtain ⟨_, _, _, hf⟩ | ⟨_, _, hread⟩ := step_fault h
  · cases hf
  · obtain ⟨_, hf⟩ | ⟨_, _, hf⟩ := memRead_error hread <;> cases hf

/-- Settles O47: the two branches of the loader; the image is the array of the loaded bytes. -/
theorem loaderValidatesBeforeConstruction : Obligations.LoaderValidatesBeforeConstruction := by
  refine ⟨fun hash digest bytes ram h => loadWith_rejected ram h, fun hash digest bytes ram hlen hhash => ?_,
    fun bytes ram hlen => loadWith_rejected ram fun h => hlen h.1, step_ne_romValidationError⟩
  refine ⟨_, loadWith_accepted ram ⟨hlen, hhash⟩, ?_, fun i h => ?_⟩
  · exact Memory.ofBytesFrom_wfFrom _ bytes 0 (by omega)
  · simpa [Memory.ofBytes] using Memory.read_ofBytesFrom 0 i h

end Sys2Proof.Machine

/-! ### A width change is seen by the next instruction (spec/70_reset_and_hazards.md R176) -/

namespace Sys2Proof.Machine

/-- The instruction stream is read from K, PC and the bus alone. -/
theorem codeBytes_congr {s t : State} {bytes : List Byte} (hpc : t.pc = s.pc) (hk : t.k = s.k) (hbus : t.bus = s.bus) :
    CodeBytes t bytes ↔ CodeBytes s bytes := by
  simp only [CodeBytes, hpc, hk, memRead_congr hbus]

/-- Two lists of bytes stand in the stream one after the other: the second from the PC past the first. -/
theorem codeBytes_append {s : State} {xs ys : List Byte} :
    CodeBytes s (xs ++ ys) ↔ CodeBytes s xs ∧ CodeBytes (s.withPc (s.pc + BitVec.ofNat 16 xs.length)) ys := by
  induction xs generalizing s with
  | nil => simp [CodeBytes]
  | cons x xs ih =>
    have hpast : (s.withPc (s.pc + 1)).withPc (s.pc + 1 + BitVec.ofNat 16 xs.length) =
        s.withPc (s.pc + BitVec.ofNat 16 (x :: xs).length) := congrArg s.withPc (pc_shift s.pc xs.length)
    rw [List.cons_append, codeBytes_cons, codeBytes_cons, ih, and_assoc, State.withPc_pc, hpast]

section
variable {s : State} {op : Byte}

/-- An admitted opcode that is no branch or jump, with its operand bytes in the stream: the step completes, and what
stands after the instruction in the stream is what the next step fetches. -/
theorem step_straightLine {tail : List Byte} (hrunning : s.status = .running)
    (hop : op ∈ admittedOpcodes ∧ op ∉ transferOpcodes) (hle : operandCount (widthsOf s.ps) op ≤ tail.length)
    (hcode : CodeBytes s (op :: tail)) :
    ∃ t, step s = .next t ∧ t.pc = s.pc + BitVec.ofNat 16 (1 + operandCount (widthsOf s.ps) op) ∧
      CodeBytes t (tail.drop (operandCount (widthsOf s.ps) op)) := by
  obtain ⟨hadmitted, hstraight⟩ := hop
  have hlen := List.length_take_of_le hle
  rw [← List.take_append_drop (operandCount (widthsOf s.ps) op) tail, ← List.cons_append, codeBytes_append] at hcode
  obtain ⟨hinstr, hrest⟩ := hcode
  rw [List.length_cons, hlen, Nat.add_comm] at hrest
  have hdecode := decode_exact hlen
  obtain ⟨t, hexec⟩ := exec_completes (decode_ne_unimplemented hadmitted hdecode) (s.withPc _)
  have hstep : step s = .next t := (stepRunsTheDecodedInstruction s _ _ hrunning hdecode hinstr).trans hexec
  obtain ⟨hread, -⟩ := codeBytes_cons.1 hinstr
  obtain ⟨hpc, hk⟩ := straightLineStepAdvancesPc s t op hread hstraight hstep
  obtain ⟨-, -, -, -, hbus, -⟩ := step_keeps hstep
  exact ⟨t, hstep, hpc, (codeBytes_congr (s := s.withPc _) hpc hk hbus).2 hrest⟩

/-- An opcode with an immediate of variable width: PC advances over two bytes or three, as the width at the step says
(spec/30_encoding.md R73). -/
theorem step_immediate {lo hi : Byte} {narrow : Bool} (hrunning : s.status = .running)
    (hop : op ∈ admittedOpcodes ∧ op ∉ transferOpcodes)
    (hcount : operandCount (widthsOf s.ps) op = if narrow then 1 else 2) (hcode : CodeBytes s [op, lo, hi]) :
    ∃ t, step s = .next t ∧ t.pc = s.pc + (if narrow then 2 else 3) := by
  have hle : operandCount (widthsOf s.ps) op ≤ [lo, hi].length := by
    rw [hcount]
    cases narrow <;> simp
  obtain ⟨t, hstep, hpc, -⟩ := step_straightLine hrunning hop hle hcode
  rw [hcount] at hpc
  exact ⟨t, hstep, by cases narrow <;> exact hpc⟩

end

/-- REP and SEP take one operand byte, the mask. -/
theorem operandCount_switch (c : Widths) {op : Byte} (h : op ∈ ([0xC2, 0xE2] : List Byte)) : operandCount c op = 1 := by
  fin_cases h <;> rfl

/-- The immediate of ADC, SBC and CMP has the accumulator's width (spec/30_encoding.md R73). -/
theorem operandCount_immM (c : Widths) {op : Byte} (h : op ∈ ([0x69, 0xE9, 0xC9] : List Byte)) :
    operandCount c op = if c.m8 then 1 else 2 := by
  fin_cases h <;> rfl

/-- The immediate of CPX and CPY has the index registers' width (R73). -/
theorem operandCount_immX (c : Widths) {op : Byte} (h : op ∈ ([0xE0, 0xC0] : List Byte)) :
    operandCount c op = if c.x8 then 1 else 2 := by
  fin_cases h <;> rfl

/-- REP, SEP and the five immediate instructions are admitted, and none of them is a branch or jump. -/
theorem straightLine_of_mem :
    ∀ op ∈ ([0xC2, 0xE2] ++ ([0x69, 0xE9, 0xC9] ++ [0xE0, 0xC0]) : List Byte),
      op ∈ admittedOpcodes ∧ op ∉ transferOpcodes := by
  decide

/-- Settles O39: the switch leaves the three bytes after it to the next step, which takes as many as the widths of the
state it starts from ask for. -/
theorem widthChangeIsSeenByTheNextInstruction : Obligations.WidthChangeIsSeenByTheNextInstruction := by
  intro s switch mask op lo hi hrunning hswitch hcode
  have hcount := operandCount_switch (widthsOf s.ps) hswitch
  obtain ⟨t, hstep, hpc, hrest⟩ := step_straightLine hrunning
    (straightLine_of_mem switch (List.mem_append_left _ hswitch)) (by simp [hcount]) hcode
  rw [hcount] at hpc hrest
  have hrunning' := step_next_running hstep
  refine ⟨t, hstep, hpc, fun hop => ?_, fun hop => ?_⟩
  · exact step_immediate hrunning' (straightLine_of_mem op (List.mem_append_right _ (List.mem_append_left _ hop)))
      (operandCount_immM _ hop) hrest
  · exact step_immediate hrunning' (straightLine_of_mem op (List.mem_append_right _ (List.mem_append_right _ hop)))
      (operandCount_immX _ hop) hrest

end Sys2Proof.Machine
